-- ==== Sys2Proof/Config.lean ====
section
/-!
DEFINITION. The parameters of the FAU (00_scope.md R5) and the layout of its window (20_memory.md R51).
All are fixed by the spec for this hardware; there is no free value (93_implementation_defined.md, end of Part 1).
-/

namespace Sys2Proof.Config

/-- Width of a general register, a share-table field, an operand and a result, in bits (R5, decision D2). -/
abbrev W : Nat := 256

/-- 32-bit limbs of a W-bit value (R5). -/
abbrev LIMBS : Nat := 8

/-- General registers (R5, R20). -/
abbrev NREG : Nat := 16

/-- Share-table slots (R5, R24). -/
abbrev NSLOT : Nat := 16

/-- Bytes of the only access width the window accepts (R5 BUSW, R55). -/
abbrev ACCESS : Nat := 4

/-- Offset of CMD (R51). -/
abbrev CMD : Nat := 0x000

/-- Offset of STATUS (R51). -/
abbrev STATUS : Nat := 0x004

/-- Offset of COUNT (R51). -/
abbrev COUNT : Nat := 0x008

/-- First offset of the register window; the offsets between COUNT and it are reserved (R51). -/
abbrev REGS : Nat := 0x200

/-- First offset of the share-table window (R51). -/
abbrev TABLE : Nat := 0x400

/-- Size of the window in bytes; offsets from here on do not exist (R5, R50). -/
abbrev WINDOW : Nat := 0x800

end Sys2Proof.Config
end

