-- ==== Sys2Proof/Word.lean ====
section
/-!
DEFINITION. The word types of the FAU: W-bit values (00_scope.md R5, R9), 32-bit bus words, and the numbers that
name a register, a slot and a limb.
-/

namespace Sys2Proof

/-- A W-bit value, W = 256: a register, a table field, an operand, a result (00_scope.md R5, R9). -/
abbrev Word := BitVec 256

/-- A 32-bit bus word: the data of one transaction, and a command word (20_memory.md R50, 30_encoding.md R80). -/
abbrev BusWord := BitVec 32

/-- A general register number; all sixteen values are legal in every register field (30_encoding.md R83). -/
abbrev Reg := Fin 16

/-- A share-table slot number (10_state.md R24). -/
abbrev Slot := Fin 16

/-- A limb number of a W-bit value; limb 0 is the most significant (20_memory.md R54). -/
abbrev Limb := Fin 8

end Sys2Proof
end

