-- ==== Sys2Proof/Syntax.lean ====
section
/-!
DEFINITION. The ten commands of the FAU as syntax, one constructor per row of spec/opcode_table.json
(30_encoding.md R80, R91). Operands stand in the assembler's order: destination first, modulus last.
-/

namespace Sys2Proof

/-- A command (30_encoding.md R80). Register operands are numbers 0 .. 15 by type. The two immediates `i` and `t`
are plain naturals, as the assembler text has them (R91); `Instr.wf` says which fit their fields (R84, R85). -/
inductive Instr where
  /-- `MODRED rd, ra, rm` (R112) -/
  | modred (rd ra rm : Reg)
  /-- `MODADD rd, ra, rb, rm` (R113) -/
  | modadd (rd ra rb rm : Reg)
  /-- `MODSUB rd, ra, rb, rm` (R114) -/
  | modsub (rd ra rb rm : Reg)
  /-- `MODNEG rd, ra, rm` (R115) -/
  | modneg (rd ra rm : Reg)
  /-- `MODMUL rd, ra, rb, rm` (R116) -/
  | modmul (rd ra rb rm : Reg)
  /-- `MODEXP rd, ra, rb, rm`: base `x[ra]`, exponent `x[rb]` (R131) -/
  | modexp (rd ra rb rm : Reg)
  /-- `MODINV rd, ra, rm` (R141) -/
  | modinv (rd ra rm : Reg)
  /-- `LAGCOEF rd, i, t, rm` (R154) -/
  | lagcoef (rd : Reg) (i t : Nat) (rm : Reg)
  /-- `LAGRECON rd, t, rm` (R156) -/
  | lagrecon (rd : Reg) (t : Nat) (rm : Reg)
  /-- `CLEAR` (R170) -/
  | clear
  deriving DecidableEq, Repr

/-- The ten commands without their operands: the first column of the opcode map (30_encoding.md R86). -/
inductive Op where
  | modred | modadd | modsub | modneg | modmul | modexp | modinv | lagcoef | lagrecon | clear
  deriving DecidableEq, Repr

/-- Which command an instruction is. -/
def Instr.op : Instr → Op
  | .modred _ _ _ => .modred
  | .modadd _ _ _ _ => .modadd
  | .modsub _ _ _ _ => .modsub
  | .modneg _ _ _ => .modneg
  | .modmul _ _ _ _ => .modmul
  | .modexp _ _ _ _ => .modexp
  | .modinv _ _ _ => .modinv
  | .lagcoef _ _ _ _ => .lagcoef
  | .lagrecon _ _ _ => .lagrecon
  | .clear => .clear

/-- The register a command writes when it completes without error (10_state.md R21); CLEAR has none of its own: it
writes all sixteen. -/
def Instr.dest : Instr → Option Reg
  | .modred rd _ _ => some rd
  | .modadd rd _ _ _ => some rd
  | .modsub rd _ _ _ => some rd
  | .modneg rd _ _ => some rd
  | .modmul rd _ _ _ => some rd
  | .modexp rd _ _ _ => some rd
  | .modinv rd _ _ => some rd
  | .lagcoef rd _ _ _ => some rd
  | .lagrecon rd _ _ => some rd
  | .clear => none

/-- The general registers a command reads (10_state.md R21). -/
def Instr.sources : Instr → List Reg
  | .modred _ ra rm => [ra, rm]
  | .modadd _ ra rb rm => [ra, rb, rm]
  | .modsub _ ra rb rm => [ra, rb, rm]
  | .modneg _ ra rm => [ra, rm]
  | .modmul _ ra rb rm => [ra, rb, rm]
  | .modexp _ ra rb rm => [ra, rb, rm]
  | .modinv _ ra rm => [ra, rm]
  | .lagcoef _ _ _ rm => [rm]
  | .lagrecon _ _ rm => [rm]
  | .clear => []

end Sys2Proof
end

