-- ==== Sys2Proof/WellFormed.lean ====
section
/-!
DEFINITION. Well-formedness of a command as syntax: its immediates fit their fields (30_encoding.md R84, R85).
Register numbers are in range by their type.
-/

namespace Sys2Proof

/-- `i` is a 4-bit unsigned slot number (R85). -/
def wfSlot (i : Nat) : Bool := decide (i < 16)

/-- `t` is a 5-bit unsigned threshold; 17 .. 31 are legal encodings (R85, R89). -/
def wfThreshold (t : Nat) : Bool := decide (t < 32)

/-- A command that has an encoding. -/
def Instr.wf : Instr → Bool
  | .modred _ _ _ => true
  | .modadd _ _ _ _ => true
  | .modsub _ _ _ _ => true
  | .modneg _ _ _ => true
  | .modmul _ _ _ _ => true
  | .modexp _ _ _ _ => true
  | .modinv _ _ _ => true
  | .lagcoef _ i t _ => wfSlot i && wfThreshold t
  | .lagrecon _ t _ => wfThreshold t
  | .clear => true

end Sys2Proof
end

