-- ==== Sys2Proof/Decode.lean ====
section
/-!
DEFINITION. Command encoding (30_encoding.md): the opcode map, the decoder, total on every 32-bit word, and the
encoder. A command word is a number (20_memory.md R54: no byte order inside a transaction), numbered as R9 numbers it.
-/

namespace Sys2Proof

/-- Why a word is no command (R89): its opcode is unassigned, or a must-be-zero bit of its row is 1. The FAU does not
tell the two apart (60_exceptions.md R180: no cause sub-code). -/
inductive Illegal where
  | unassignedOpcode
  | mustBeZero
  deriving DecidableEq, Repr

/-- One row of the opcode map: `mask` marks the bits a decoder tests, `pattern` their required values (R86). -/
structure Row where
  op : Op
  mask : BusWord
  pattern : BusWord
  deriving DecidableEq, Repr

/-- The opcode map, row by row as R86 prints it. -/
def opcodeMap : List Row :=
  [ ⟨.modred,   0xFF0F00FF#32, 0x00000001#32⟩,
    ⟨.modadd,   0xFF0000FF#32, 0x00000002#32⟩,
    ⟨.modsub,   0xFF0000FF#32, 0x00000003#32⟩,
    ⟨.modneg,   0xFF0F00FF#32, 0x00000004#32⟩,
    ⟨.modmul,   0xFF0000FF#32, 0x00000005#32⟩,
    ⟨.modexp,   0xFF0000FF#32, 0x00000010#32⟩,
    ⟨.modinv,   0xFF0F00FF#32, 0x00000011#32⟩,
    ⟨.lagcoef,  0xE00F00FF#32, 0x00000020#32⟩,
    ⟨.lagrecon, 0xE00FF0FF#32, 0x00000021#32⟩,
    ⟨.clear,    0xFFFFFFFF#32, 0x000000F0#32⟩ ]

/-- A word is the command of a row exactly when `(c AND mask) = match` (R86). -/
def Row.matchesWord (r : Row) (c : BusWord) : Bool := c &&& r.mask == r.pattern

/-- The opcode `c[7:0]`. -/
def opcodeField (c : BusWord) : BitVec 8 := c.extractLsb' 0 8

/-- The 4-bit register number whose lowest bit is bit `lo` (R82, R83). -/
def regField (c : BusWord) (lo : Nat) : Reg := (c.extractLsb' lo 4).toFin

/-- `i = c[15:12]` (R84, R85). -/
def slotField (c : BusWord) : Nat := (c.extractLsb' 12 4).toNat

/-- `t = c[28:24]` (R84, R85). -/
def thresholdField (c : BusWord) : Nat := (c.extractLsb' 24 5).toNat

/-- The command of a matching row, with the fields it uses: rd = c[11:8], ra = c[15:12], rb = c[19:16], rm = c[23:20],
i = c[15:12], t = c[28:24] (R87). -/
def Op.withFields (op : Op) (c : BusWord) : Instr :=
  match op with
  | .modred => .modred (regField c 8) (regField c 12) (regField c 20)
  | .modadd => .modadd (regField c 8) (regField c 12) (regField c 16) (regField c 20)
  | .modsub => .modsub (regField c 8) (regField c 12) (regField c 16) (regField c 20)
  | .modneg => .modneg (regField c 8) (regField c 12) (regField c 20)
  | .modmul => .modmul (regField c 8) (regField c 12) (regField c 16) (regField c 20)
  | .modexp => .modexp (regField c 8) (regField c 12) (regField c 16) (regField c 20)
  | .modinv => .modinv (regField c 8) (regField c 12) (regField c 20)
  | .lagcoef => .lagcoef (regField c 8) (slotField c) (thresholdField c) (regField c 20)
  | .lagrecon => .lagrecon (regField c 8) (thresholdField c) (regField c 20)
  | .clear => .clear

/-- Why a word that matches no row is illegal (R89). -/
def illegalReason (c : BusWord) : Illegal :=
  if opcodeMap.any (fun r => opcodeField c == opcodeField r.pattern) then .mustBeZero else .unassignedOpcode

/-- `decode(c)` of R87: the row that matches, or Illegal. -/
def decode (c : BusWord) : Except Illegal Instr :=
  match opcodeMap.find? (fun r => r.matchesWord c) with
  | some r => .ok (r.op.withFields c)
  | none => .error (illegalReason c)

/-- The opcode of each command: bits [7:0] of its row (R86). -/
def Op.code : Op → BitVec 8
  | .modred => 0x01#8
  | .modadd => 0x02#8
  | .modsub => 0x03#8
  | .modneg => 0x04#8
  | .modmul => 0x05#8
  | .modexp => 0x10#8
  | .modinv => 0x11#8
  | .lagcoef => 0x20#8
  | .lagrecon => 0x21#8
  | .clear => 0xF0#8

/-- Format Z (R81): [31:8] zero, [7:0] opcode. -/
def formatZ (op : Op) : BusWord := 0#24 ++ op.code

/-- Format R (R82): [31:24] zero, [23:20] rm, [19:16] rb, [15:12] ra, [11:8] rd, [7:0] opcode. -/
def formatR (op : Op) (rd ra rb rm : Reg) : BusWord :=
  0#8 ++ BitVec.ofNat 4 rm ++ BitVec.ofNat 4 rb ++ BitVec.ofNat 4 ra ++ BitVec.ofNat 4 rd ++ op.code

/-- Format L (R84): [31:29] zero, [28:24] t, [23:20] rm, [19:16] zero, [15:12] i, [11:8] rd, [7:0] opcode. -/
def formatL (op : Op) (rd : Reg) (i t : Nat) (rm : Reg) : BusWord :=
  0#3 ++ BitVec.ofNat 5 t ++ BitVec.ofNat 4 rm ++ 0#4 ++ BitVec.ofNat 4 i ++ BitVec.ofNat 4 rd ++ op.code

/-- The word of a well-formed command (R81, R82, R84, R87). The field of a second source a command does not have is 0
(R82), and so is LAGRECON's `i` (R84). -/
def encode : Instr → BusWord
  | .modred rd ra rm => formatR .modred rd ra 0 rm
  | .modadd rd ra rb rm => formatR .modadd rd ra rb rm
  | .modsub rd ra rb rm => formatR .modsub rd ra rb rm
  | .modneg rd ra rm => formatR .modneg rd ra 0 rm
  | .modmul rd ra rb rm => formatR .modmul rd ra rb rm
  | .modexp rd ra rb rm => formatR .modexp rd ra rb rm
  | .modinv rd ra rm => formatR .modinv rd ra 0 rm
  | .lagcoef rd i t rm => formatL .lagcoef rd i t rm
  | .lagrecon rd t rm => formatL .lagrecon rd 0 t rm
  | .clear => formatZ .clear

/-- The instruction read from a table row's word: bit 0 is the least significant bit of the one word a command has
(R80), and every bit from `nbits` on is 0. -/
def decodeTableWord (nbits w : Nat) : Option Instr :=
  match decode (BitVec.ofNat 32 (w % 2 ^ nbits)) with
  | .ok i => some i
  | .error _ => none

/-- A register operand in assembler text, `x0` .. `x15` (R91). -/
def asmReg (r : Reg) : String := "x" ++ toString r.val

/-- Assembler text: the mnemonic, a space, the operands separated by a comma and a space (R91). -/
def asmLine (mnemonic : String) (operands : List String) : String :=
  mnemonic ++ " " ++ String.intercalate ", " operands

/-- The assembler syntax of a command (R91): destination first, modulus last, `i` and `t` decimal. -/
def Instr.asm : Instr → String
  | .modred rd ra rm => asmLine "MODRED" [asmReg rd, asmReg ra, asmReg rm]
  | .modadd rd ra rb rm => asmLine "MODADD" [asmReg rd, asmReg ra, asmReg rb, asmReg rm]
  | .modsub rd ra rb rm => asmLine "MODSUB" [asmReg rd, asmReg ra, asmReg rb, asmReg rm]
  | .modneg rd ra rm => asmLine "MODNEG" [asmReg rd, asmReg ra, asmReg rm]
  | .modmul rd ra rb rm => asmLine "MODMUL" [asmReg rd, asmReg ra, asmReg rb, asmReg rm]
  | .modexp rd ra rb rm => asmLine "MODEXP" [asmReg rd, asmReg ra, asmReg rb, asmReg rm]
  | .modinv rd ra rm => asmLine "MODINV" [asmReg rd, asmReg ra, asmReg rm]
  | .lagcoef rd i t rm => asmLine "LAGCOEF" [asmReg rd, toString i, toString t, asmReg rm]
  | .lagrecon rd t rm => asmLine "LAGRECON" [asmReg rd, toString t, asmReg rm]
  | .clear => "CLEAR"

end Sys2Proof
end

