-- ==== Sys2Proof/Machine/State.lean ====
section
/-!
DEFINITION. The state of the FAU as plain data: the whole architectural record of 10_state.md R37, and the two fields
of the model itself (log 2) that hold the outside world's events to come and the last response.
-/

namespace Sys2Proof.Machine

/-- The size of a bus access (20_memory.md R55): one transfer of so many bytes, or a burst of so many beats. The
window accepts `single 4` only. -/
inductive AccessSize where
  | single (bytes : Nat)
  | burst (beats : Nat)
  deriving DecidableEq, Repr

/-- What the outside world does to the FAU (00_scope.md R6, R8; 70_reset_and_hazards.md R200): a host read, a host
write, or a reset. `off` is a byte offset from the window's start, of any value (20_memory.md R50). `data` is the
32-bit value of a 32-bit write; an access of another size is answered BusError whatever it carries (R55), so its data
is not held (log 3). -/
inductive HostEvent where
  | read (off : Nat) (size : AccessSize)
  | write (off : Nat) (size : AccessSize) (data : BusWord)
  | reset
  deriving DecidableEq, Repr

/-- The response to a transaction; these three are all (20_memory.md R67). -/
inductive Response where
  | ok
  | okData (data : BusWord)
  | busError
  deriving DecidableEq, Repr

/-- The state of the machine. The first five fields are the architectural state of 10_state.md R37, and there is no
more of it (R35). -/
structure State where
  /-- General registers `x[0]` .. `x[15]`; none is hard-wired (R20). -/
  x : Vector Word 16
  /-- `T[s].X`, the share indices (R24). -/
  tX : Vector Word 16
  /-- `T[s].F`, the share values (R24). -/
  tF : Vector Word 16
  /-- COUNT, a 5-bit register that holds 0 .. 16 (R27). -/
  count : BitVec 5
  /-- STATUS.ERR, the code of the most recent command (R29, R30). -/
  err : BitVec 2
  /-- The model's own (log 2): what the outside world will still do, in the order it does it (20_memory.md R61). -/
  host : List HostEvent
  /-- The model's own (log 2): the response to the most recent transaction, none since reset. -/
  response : Option Response
  deriving DecidableEq, Repr

/-- Reasons for the machine to stop with a fault: none. No rule of the spec stops the FAU: a failed command goes on
with a code in STATUS.ERR (60_exceptions.md R187, R190), and a malformed access is answered BusError (20_memory.md
R55, R67). Nobody raises a fault (log 5). -/
inductive Fault where
  deriving DecidableEq, Repr

/-- Reasons for the model to refuse. -/
inductive Refusal where
  /-- An instruction without a meaning; raised by a refused arm of exec only, and no arm is refused. Safe: the run
  ends. -/
  | notModelled (mnemonic : String)
  deriving DecidableEq, Repr

/-- The machine right after reset (10_state.md R36, 70_reset_and_hazards.md R200): every register, table field, COUNT
and STATUS.ERR is 0. The outside world has nothing in hand yet, and no response has been given (log 2). -/
def State.reset : State where
  x := Vector.replicate 16 0#256
  tX := Vector.replicate 16 0#256
  tF := Vector.replicate 16 0#256
  count := 0#5
  err := 0#2
  host := []
  response := none

end Sys2Proof.Machine
end

