-- ==== Sys2Proof/Machine/Flags.lean ====
section
/-!
DEFINITION. The only flag of the FAU, STATUS.ERR (10_state.md R29 to R31): the errors a command can end in and their
codes. There are no condition codes, so no command computes any other flag.
-/

namespace Sys2Proof.Machine

/-- The three errors (60_exceptions.md R180). -/
inductive Err where
  /-- DomainError (R181) -/
  | domain
  /-- InsufficientSharesError (R182) -/
  | insufficientShares
  /-- IllegalCommand (R184) -/
  | illegalCommand
  deriving DecidableEq, Repr

/-- The value of STATUS.ERR for each error (10_state.md R29, 60_exceptions.md R180). -/
def Err.code : Err → BitVec 2
  | .domain => 1#2
  | .insufficientShares => 2#2
  | .illegalCommand => 3#2

/-- The value of STATUS.ERR after a command that completed (10_state.md R29). -/
def noError : BitVec 2 := 0#2

/-- The engine's write of STATUS.ERR at the end of every command (10_state.md R29, R30). -/
def State.setErr (s : State) (code : BitVec 2) : State := { s with err := code }

/-- What a read of STATUS shows: ERR in bits [1:0], bits [31:2] zero (10_state.md R29). -/
def State.statusWord (s : State) : BusWord := s.err.setWidth 32

end Sys2Proof.Machine
end

