-- ==== Sys2Proof/Machine/Operands.lean ====
section
/-!
DEFINITION. The operand forms: a general register read as a natural and written, the two fields of a table slot read
by slot number (20_memory.md R66), and the limbs of a W-bit value (R54).
-/

namespace Sys2Proof.Machine

/-- `x[n]` as a source: a natural below 2^W (00_scope.md R11). -/
def State.regVal (s : State) (n : Reg) : Nat := s.x[n].toNat

/-- `x[n] <- v` (00_scope.md R11). -/
def State.setReg (s : State) (n : Reg) (v : Word) : State := { s with x := s.x.set n v }

/-- `T[n].X` by direct slot number (20_memory.md R66). A slot number above 15 does not occur: a command uses slots
0 .. t-1 with t at most COUNT, and COUNT is at most 16 in every state a run reaches (log 7). -/
def State.slotX (s : State) (n : Nat) : Nat := (s.tX[n]?.getD 0#256).toNat

/-- `T[n].F` by direct slot number (20_memory.md R66); slot numbers as for `slotX`. -/
def State.slotF (s : State) (n : Nat) : Nat := (s.tF[n]?.getD 0#256).toNat

/-- The lowest bit of limb k: limb 0 is the most significant (20_memory.md R54). -/
def limbShift (k : Limb) : Nat := 224 - 32 * k.val

/-- `limb(v, k) = v[255-32k : 224-32k]` (20_memory.md R54). -/
def limb (v : Word) (k : Limb) : BusWord := v.extractLsb' (limbShift k) 32

/-- Limb k replaced: `v - limb(v,k) * 2^(224-32k) + w * 2^(224-32k)` (20_memory.md R57). -/
def setLimb (v : Word) (k : Limb) (w : BusWord) : Word :=
  BitVec.ofNat 256 (v.toNat - (limb v k).toNat * 2 ^ limbShift k + w.toNat * 2 ^ limbShift k)

/-- `byte(v, j) = v[255-8j : 248-8j]`, the canonical byte image of a value (20_memory.md R54); no access reads it. -/
def wordByte (v : Word) (j : Fin 32) : BitVec 8 := v.extractLsb' (248 - 8 * j.val) 8

end Sys2Proof.Machine
end

