-- ==== Sys2Proof/Machine/Arith.lean ====
section
/-!
DEFINITION. The mathematical primitives of 00_scope.md R10 that a command evaluates: the non-negative residue, the
power by repeated squaring (41_modexp.md R132) and the inverse by the extended Euclidean algorithm (42_modinv.md R142).
Intermediates are exact (40_field_arith.md R117).
-/

namespace Sys2Proof.Machine

/-- `a mod m` for any integer a and m > 0: the residue in [0, m), never negative (R10). -/
def residue (a : Int) (m : Nat) : Nat := (a % (m : Int)).toNat

/-- The right-to-left square-and-multiply loop of R132 on (r, b, e); the first argument bounds the number of rounds. -/
def powLoop (m : Nat) : Nat → Nat → Nat → Nat → Nat
  | 0, r, _, _ => r
  | rounds + 1, r, b, e =>
    if e = 0 then r
    else powLoop m rounds (if e % 2 = 1 then r * b % m else r) (b * b % m) (e / 2)

/-- `modexp(a, e, m)` of R132, m ≥ 1: it starts from `1 mod m` (90_conflicts.md C1). An exponent has W bits, so W
rounds are enough. -/
def modexp (a e m : Nat) : Nat := powLoop m Config.W (1 % m) (a % m) e

/-- The extended Euclidean loop of R142 on (r0, r1) and (t0, t1); the first argument bounds the number of rounds. -/
def euclidLoop : Nat → Nat → Nat → Int → Int → Nat × Int
  | 0, r0, _, t0, _ => (r0, t0)
  | rounds + 1, r0, r1, t0, t1 =>
    if r1 = 0 then (r0, t0)
    else euclidLoop rounds r1 (r0 - r0 / r1 * r1) t1 (t0 - ((r0 / r1 : Nat) : Int) * t1)

/-- `modinv(a, m)` of R142, m ≥ 1: DomainError unless gcd(a, m) = 1. Each round lowers the second remainder, which
starts below m, so m rounds are enough. -/
def modinv (a m : Nat) : Except Err Nat :=
  let g := euclidLoop m m (a % m) 0 1
  if g.1 = 1 then .ok (residue g.2 m) else .error .domain

end Sys2Proof.Machine
end

