-- ==== Sys2Proof/Machine/Ops.lean ====
section
/-!
DEFINITION. The operations the commands share: taking an error, completing, and the end of an arithmetic command
(30_encoding.md R88 steps 3 to 6); and the window, a view of the registers (20_memory.md R51 to R57).
-/

namespace Sys2Proof.Machine

/-- TAKING AN ERROR: `raise` of 00_scope.md R11. STATUS.ERR gets the code and nothing else changes: no state is saved,
no mode switched, no vector consulted (60_exceptions.md R187, R189). There is no return to go with it: the next command
just runs and overwrites the code (R190). -/
def State.raise (s : State) (e : Err) : State := s.setErr e.code

/-- `x[rd] <- r; complete`: the destination, then STATUS.ERR = 0 (60_exceptions.md R186). A result is in [0, m), so
it fits (10_state.md R23). -/
def State.complete (s : State) (rd : Reg) (r : Nat) : State := (s.setReg rd (BitVec.ofNat 256 r)).setErr noError

/-- The end of an arithmetic command: its result is written, or its error taken (30_encoding.md R88 steps 3 to 6). -/
def State.finish (s : State) (rd : Reg) : Except Err Nat → State
  | .ok r => s.complete rd r
  | .error e => s.raise e

/-- The zero-modulus test, made before any reduction (60_exceptions.md R183, 40_field_arith.md R111). -/
def checkModulus (m : Nat) (r : Except Err Nat) : Except Err Nat := if m = 0 then .error .domain else r

/-- The checks of the Lagrange commands in the order of 60_exceptions.md R185: COUNT < t (43_lagrange.md R152), then
the operand errors t = 0, m = 0 and, where the command has an `i`, i ≥ t (R153). -/
def checkLagrange (count t m : Nat) (slotOutside : Bool) (r : Except Err Nat) : Except Err Nat :=
  if count < t then .error .insufficientShares
  else if t = 0 ∨ m = 0 ∨ slotOutside then .error .domain
  else r

/-- Every register, table field and COUNT 0, then complete (44_system.md R170). -/
def State.zeroise (s : State) : State :=
  { s with
      x := Vector.replicate 16 0#256
      tX := Vector.replicate 16 0#256
      tF := Vector.replicate 16 0#256
      count := 0#5
      err := noError }

/-- A mapped word of the window (20_memory.md R51). -/
inductive Loc where
  | cmd
  | status
  | count
  /-- limb k of `x[n]` (R52) -/
  | reg (n : Reg) (k : Limb)
  /-- limb k of `T[n].X` (R53) -/
  | slotX (n : Slot) (k : Limb)
  /-- limb k of `T[n].F` (R53) -/
  | slotF (n : Slot) (k : Limb)
  deriving DecidableEq, Repr

/-- The offset of a mapped word (20_memory.md R51 to R53). -/
def Loc.offset : Loc → Nat
  | .cmd => Config.CMD
  | .status => Config.STATUS
  | .count => Config.COUNT
  | .reg n k => Config.REGS + 32 * n.val + 4 * k.val
  | .slotX n k => Config.TABLE + 64 * n.val + 4 * k.val
  | .slotF n k => Config.TABLE + 64 * n.val + 32 + 4 * k.val

/-- The inverse map inside the two register files (20_memory.md R52, R53), for an offset from REGS on. -/
def locateStorage (off : Nat) : Option Loc :=
  if off < Config.TABLE then
    some (.reg (Fin.ofNat 16 ((off - Config.REGS) / 32)) (Fin.ofNat 8 ((off - Config.REGS) % 32 / 4)))
  else if off < Config.WINDOW then
    if (off - Config.TABLE) % 64 < 32 then
      some (.slotX (Fin.ofNat 16 ((off - Config.TABLE) / 64)) (Fin.ofNat 8 ((off - Config.TABLE) % 32 / 4)))
    else
      some (.slotF (Fin.ofNat 16 ((off - Config.TABLE) / 64)) (Fin.ofNat 8 ((off - Config.TABLE) % 32 / 4)))
  else none

/-- The word an access reaches, none where the window answers BusError: not a 32-bit access, a misaligned offset, the
reserved row, or an offset from 0x800 on (20_memory.md R51, R55). -/
def locate (off : Nat) (size : AccessSize) : Option Loc :=
  if size = .single Config.ACCESS ∧ off % 4 = 0 then
    if off = Config.CMD then some .cmd
    else if off = Config.STATUS then some .status
    else if off = Config.COUNT then some .count
    else if off < Config.REGS then none
    else locateStorage off
  else none

/-- The data a read of a mapped word returns (20_memory.md R56). -/
def State.readLoc (s : State) : Loc → BusWord
  | .cmd => 0#32
  | .status => s.statusWord
  | .count => s.count.setWidth 32
  | .reg n k => limb s.x[n] k
  | .slotX n k => limb s.tX[n] k
  | .slotF n k => limb s.tF[n] k

/-- COUNT stores `min(v, 16)` (10_state.md R27). -/
def saturateCount (v : BusWord) : BitVec 5 := BitVec.ofNat 5 (min v.toNat Config.NSLOT)

/-- The effect of a write on the addressed storage (20_memory.md R57). STATUS ignores writes (10_state.md R29); CMD is
no storage (R28): what its write starts is `runCommand`. -/
def State.writeLoc (s : State) (v : BusWord) : Loc → State
  | .cmd => s
  | .status => s
  | .count => { s with count := saturateCount v }
  | .reg n k => { s with x := s.x.set n (setLimb s.x[n] k v) }
  | .slotX n k => { s with tX := s.tX.set n (setLimb s.tX[n] k v) }
  | .slotF n k => { s with tF := s.tF.set n (setLimb s.tF[n] k v) }

/-- `MemRead`: OK with data, or BusError; no state changes (20_memory.md R55, R56). -/
def State.memRead (s : State) (off : Nat) (size : AccessSize) : Response :=
  match locate off size with
  | some l => .okData (s.readLoc l)
  | none => .busError

/-- The response is given to the host (20_memory.md R67). -/
def State.respond (s : State) (r : Response) : State := { s with response := some r }

/-- Reset (70_reset_and_hazards.md R200): all state at its reset value. The events the outside world is still to
deliver are not the FAU's and stay (log 2). -/
def State.platformReset (s : State) : State := { State.reset with host := s.host }

end Sys2Proof.Machine
end

