-- ==== Sys2Proof/Machine/FieldArith.lean ====
section
/-!
DEFINITION. The field arithmetic commands (40_field_arith.md): MODRED, MODADD, MODSUB, MODNEG, MODMUL.
-/

namespace Sys2Proof.Machine

/-- MODRED: `x[rd] <- a mod m` (R112). -/
def execModred (rd ra rm : Reg) (s : State) : Host.Outcome State Fault Refusal :=
  .next (s.finish rd (checkModulus (s.regVal rm) (.ok (s.regVal ra % s.regVal rm))))

/-- MODADD: `x[rd] <- (a + b) mod m`, the sum exact (R113). -/
def execModadd (rd ra rb rm : Reg) (s : State) : Host.Outcome State Fault Refusal :=
  .next (s.finish rd (checkModulus (s.regVal rm) (.ok ((s.regVal ra + s.regVal rb) % s.regVal rm))))

/-- MODSUB: `x[rd] <- (a - b) mod m`, the integer difference and the non-negative residue (R114). -/
def execModsub (rd ra rb rm : Reg) (s : State) : Host.Outcome State Fault Refusal :=
  .next (s.finish rd (checkModulus (s.regVal rm) (.ok (residue ((s.regVal ra : Int) - s.regVal rb) (s.regVal rm)))))

/-- MODNEG: `x[rd] <- (0 - a) mod m` (R115). -/
def execModneg (rd ra rm : Reg) (s : State) : Host.Outcome State Fault Refusal :=
  .next (s.finish rd (checkModulus (s.regVal rm) (.ok (residue (0 - (s.regVal ra : Int)) (s.regVal rm)))))

/-- MODMUL: `x[rd] <- (a * b) mod m`, the product exact (R116). -/
def execModmul (rd ra rb rm : Reg) (s : State) : Host.Outcome State Fault Refusal :=
  .next (s.finish rd (checkModulus (s.regVal rm) (.ok (s.regVal ra * s.regVal rb % s.regVal rm))))

end Sys2Proof.Machine
end

