-- ==== Sys2Proof/Machine/Lagrange.lean ====
section
/-!
DEFINITION. The Lagrange commands (43_lagrange.md): LAGCOEF and LAGRECON.
-/

namespace Sys2Proof.Machine

/-- The running product of R155 over j = 0 .. t-1, j ≠ i: from `1 mod m`, each factor a non-negative residue. -/
def lagProduct (factor : Nat → Int) (i t m : Nat) : Nat :=
  (List.range t).foldl (fun acc j => if j = i then acc else acc * residue (factor j) m % m) (1 % m)

/-- `lag(i, t, xs, m)` of R155: the product of the (-x_j) times the inverse of the product of the (x_i - x_j). -/
def lag (i t : Nat) (xs : Nat → Nat) (m : Nat) : Except Err Nat :=
  match modinv (lagProduct (fun j => (xs i : Int) - xs j) i t m) m with
  | .ok y => .ok (lagProduct (fun j => 0 - (xs j : Int)) i t m * y % m)
  | .error e => .error e

/-- One round of the sum of R156: `acc <- (acc + fs[i] * L) mod m`, or the error of `lag`. -/
def reconStep (t : Nat) (xs fs : Nat → Nat) (m : Nat) (acc : Except Err Nat) (i : Nat) : Except Err Nat :=
  match acc, lag i t xs m with
  | .error e, _ => .error e
  | .ok _, .error e => .error e
  | .ok a, .ok l => .ok ((a + fs i * l) % m)

/-- The sum of R156 over i = 0 .. t-1, from 0. -/
def recon (t : Nat) (xs fs : Nat → Nat) (m : Nat) : Except Err Nat :=
  (List.range t).foldl (reconStep t xs fs m) (.ok 0)

/-- LAGCOEF: the basis coefficient of slot i over slots 0 .. t-1 at x = 0 (R154). The table's indices are reduced mod
m on reading (R151). -/
def execLagcoef (rd : Reg) (i t : Nat) (rm : Reg) (s : State) : Host.Outcome State Fault Refusal :=
  .next (s.finish rd (checkLagrange s.count.toNat t (s.regVal rm) (decide (t ≤ i))
    (lag i t (fun n => s.slotX n % s.regVal rm) (s.regVal rm))))

/-- LAGRECON: the interpolated value at x = 0 of the shares in slots 0 .. t-1 (R156). Indices and values are reduced
mod m on reading (R151). -/
def execLagrecon (rd : Reg) (t : Nat) (rm : Reg) (s : State) : Host.Outcome State Fault Refusal :=
  .next (s.finish rd (checkLagrange s.count.toNat t (s.regVal rm) false
    (recon t (fun n => s.slotX n % s.regVal rm) (fun n => s.slotF n % s.regVal rm) (s.regVal rm))))

end Sys2Proof.Machine
end

