-- ==== Sys2Proof/Machine/ModExp.lean ====
section
/-!
DEFINITION. Modular exponentiation (41_modexp.md): MODEXP.
-/

namespace Sys2Proof.Machine

/-- MODEXP: `x[rd] <- ((a mod m) ^ e) mod m` with base `x[ra]` and the full exponent `x[rb]` (R131, R134). -/
def execModexp (rd ra rb rm : Reg) (s : State) : Host.Outcome State Fault Refusal :=
  .next (s.finish rd (checkModulus (s.regVal rm) (.ok (modexp (s.regVal ra) (s.regVal rb) (s.regVal rm)))))

end Sys2Proof.Machine
end

