-- ==== Sys2Proof/Machine/ModInv.lean ====
section
/-!
DEFINITION. Modular inverse (42_modinv.md): MODINV.
-/

namespace Sys2Proof.Machine

/-- MODINV: `x[rd] <- inv(a, m)`, DomainError when gcd(a, m) ≠ 1 (R141). -/
def execModinv (rd ra rm : Reg) (s : State) : Host.Outcome State Fault Refusal :=
  .next (s.finish rd (checkModulus (s.regVal rm) (modinv (s.regVal ra) (s.regVal rm))))

end Sys2Proof.Machine
end

