-- ==== Sys2Proof/Machine/System.lean ====
section
/-!
DEFINITION. The system command (44_system.md): CLEAR.
-/

namespace Sys2Proof.Machine

/-- CLEAR: all architectural state as after reset; it cannot fail (R170). -/
def execClear (s : State) : Host.Outcome State Fault Refusal := .next s.zeroise

end Sys2Proof.Machine
end

