-- ==== Sys2Proof/Machine/Dispatch.lean ====
section
/-!
DEFINITION. The meaning of each command, one arm per constructor of Instr (30_encoding.md R86, last column).
-/

namespace Sys2Proof.Machine

def exec (i : Instr) (s : State) : Host.Outcome State Fault Refusal :=
  match i with
  | .modred rd ra rm => Sys2Proof.Machine.execModred rd ra rm s
  | .modadd rd ra rb rm => Sys2Proof.Machine.execModadd rd ra rb rm s
  | .modsub rd ra rb rm => Sys2Proof.Machine.execModsub rd ra rb rm s
  | .modneg rd ra rm => Sys2Proof.Machine.execModneg rd ra rm s
  | .modmul rd ra rb rm => Sys2Proof.Machine.execModmul rd ra rb rm s
  | .modexp rd ra rb rm => Sys2Proof.Machine.execModexp rd ra rb rm s
  | .modinv rd ra rm => Sys2Proof.Machine.execModinv rd ra rm s
  | .lagcoef rd k t rm => Sys2Proof.Machine.execLagcoef rd k t rm s
  | .lagrecon rd t rm => Sys2Proof.Machine.execLagrecon rd t rm s
  | .clear => Sys2Proof.Machine.execClear s

end Sys2Proof.Machine
end

