-- ==== Sys2Proof/Machine/Bus.lean ====
section
/-!
DEFINITION. Transactions: a host read, a host write, a CMD write that runs its command to completion, and reset
(20_memory.md R55 to R58, 30_encoding.md R88, 70_reset_and_hazards.md R200).
-/

namespace Sys2Proof.Machine

/-- Step 1 of the execution template (30_encoding.md R88): a word that is no command raises IllegalCommand
(60_exceptions.md R184); a command runs to completion (20_memory.md R58). -/
def runCommand (c : BusWord) (s : State) : Host.Outcome State Fault Refusal :=
  match decode c with
  | .ok i => exec i s
  | .error _ => .next (s.raise .illegalCommand)

/-- A transaction that ended in a next state gives its response (20_memory.md R67). -/
def answered (r : Response) : Host.Outcome State Fault Refusal → Host.Outcome State Fault Refusal
  | .next s => .next (s.respond r)
  | .fault f => .fault f
  | .refused f => .refused f

/-- `MemWrite` (20_memory.md R55, R57, R58): BusError without a change for an access the window does not accept; a CMD
write runs its command and always answers OK; any other write acts on the addressed storage. -/
def memWrite (off : Nat) (size : AccessSize) (v : BusWord) (s : State) : Host.Outcome State Fault Refusal :=
  match locate off size with
  | none => .next (s.respond .busError)
  | some .cmd => answered .ok (runCommand v s)
  | some l => .next ((s.writeLoc v l).respond .ok)

/-- One event of the outside world, answered (00_scope.md R8): the step's transaction cases. -/
def transact (e : HostEvent) (s : State) : Host.Outcome State Fault Refusal :=
  match e with
  | .read off size => .next (s.respond (s.memRead off size))
  | .write off size v => memWrite off size v s
  | .reset => .next s.platformReset

/-- The next event is taken off the list of events to come; with none to come nothing happens, since the engine never
takes a step of its own (00_scope.md R6; log 4). -/
def serveHost (s : State) : Host.Outcome State Fault Refusal :=
  match s.host with
  | [] => .next s
  | e :: rest => transact e { s with host := rest }

/-- The transaction that delivers command word c: a 32-bit write of CMD (20_memory.md R58). -/
def cmdWrite (c : BusWord) : HostEvent := .write Config.CMD (.single Config.ACCESS) c

end Sys2Proof.Machine
end

