-- ==== Sys2Proof/Machine/Script.lean ====
section
/-!
DEFINITION. Host-script notation (30_encoding.md R92): each line as the list of transactions it abbreviates. It adds
nothing to the hardware.
-/

namespace Sys2Proof.Machine

/-- A 32-bit write of one mapped word. -/
def writeTo (l : Loc) (v : BusWord) : HostEvent := .write l.offset (.single Config.ACCESS) v

/-- A 32-bit read of one mapped word. -/
def readFrom (l : Loc) : HostEvent := .read l.offset (.single Config.ACCESS)

/-- `WR xn, v`: the eight limbs of v to `x[n]`. -/
def scriptWR (n : Reg) (v : Word) : List HostEvent := (List.finRange 8).map (fun k => writeTo (.reg n k) (limb v k))

/-- `WRX s, v`: the eight limbs of v to `T[s].X`. -/
def scriptWRX (n : Slot) (v : Word) : List HostEvent := (List.finRange 8).map (fun k => writeTo (.slotX n k) (limb v k))

/-- `WRF s, v`: the eight limbs of v to `T[s].F`. -/
def scriptWRF (n : Slot) (v : Word) : List HostEvent := (List.finRange 8).map (fun k => writeTo (.slotF n k) (limb v k))

/-- `WRCOUNT v`. -/
def scriptWRCOUNT (v : BusWord) : List HostEvent := [writeTo .count v]

/-- A command line: one CMD write of its encoding. -/
def scriptCommand (i : Instr) : List HostEvent := [cmdWrite (encode i)]

/-- `RD xn`: reads of the eight limbs of `x[n]`. -/
def scriptRD (n : Reg) : List HostEvent := (List.finRange 8).map (fun k => readFrom (.reg n k))

/-- `RDSTATUS`. -/
def scriptRDSTATUS : List HostEvent := [readFrom .status]

end Sys2Proof.Machine
end

