-- ==== Sys2Proof/Machine/Step.lean ====
section
/-!
DEFINITION. The step of the machine: one host event answered (00_scope.md R8), and where a command word is placed so
that the next step runs it.
-/

namespace Sys2Proof.Machine

/-- One step (00_scope.md R8). -/
def step (s : State) : Host.Outcome State Fault Refusal := serveHost s

/-- The command word w as the next transaction of the host: a CMD write of it before everything the host is still to
do (log 4). A command is one word, so the bits from `nbits` on are 0. -/
def State.withFetchWord (s : State) (nbits w : Nat) : State :=
  { s with host := cmdWrite (BitVec.ofNat 32 (w % 2 ^ nbits)) :: s.host }

end Sys2Proof.Machine
end

