-- ==== Sys2Proof/Safety.lean ====
section
/-!
DEFINITION. The terms the statements use: the invariant of COUNT, the denominators of a Lagrange command, and the causes
of the errors as 60_exceptions.md lists them.
-/

namespace Sys2Proof.Machine

/-- COUNT holds 0 .. 16 (10_state.md R27, R37): the one bound of the state its types do not carry. -/
def State.inv (s : State) : Bool := decide (s.count.toNat ≤ Config.NSLOT)

/-- The denominator factor `x_i - x_j` of slots i and j has an inverse mod m (43_lagrange.md R155). -/
def State.invertiblePair (s : State) (m i j : Nat) : Prop := Int.gcd ((s.slotX i : Int) - s.slotX j) m = 1

/-- The exact product of the numerator factors `-x_j`, j < t, j ≠ i (43_lagrange.md R150, R155). -/
def State.numerator (s : State) (t i : Nat) : Int := ∏ j ∈ (Finset.range t).erase i, (-(s.slotX j : Int))

/-- The exact product of the denominator factors `x_i - x_j`, j < t, j ≠ i (43_lagrange.md R150, R155). -/
def State.denominator (s : State) (t i : Nat) : Int :=
  ∏ j ∈ (Finset.range t).erase i, ((s.slotX i : Int) - s.slotX j)

/-- The only cause of InsufficientSharesError: COUNT < t in a Lagrange command (60_exceptions.md R182). -/
def insufficientCause (i : Instr) (s : State) : Prop :=
  match i with
  | .lagcoef _ _ t _ => s.count.toNat < t
  | .lagrecon _ t _ => s.count.toNat < t
  | .modred _ _ _ | .modadd _ _ _ _ | .modsub _ _ _ _ | .modneg _ _ _ | .modmul _ _ _ _ | .modexp _ _ _ _
  | .modinv _ _ _ | .clear => False

/-- The complete list of causes of DomainError (60_exceptions.md R181). -/
def domainCause (i : Instr) (s : State) : Prop :=
  match i with
  | .modred _ _ rm => s.x[rm] = 0#256
  | .modadd _ _ _ rm => s.x[rm] = 0#256
  | .modsub _ _ _ rm => s.x[rm] = 0#256
  | .modneg _ _ rm => s.x[rm] = 0#256
  | .modmul _ _ _ rm => s.x[rm] = 0#256
  | .modexp _ _ _ rm => s.x[rm] = 0#256
  | .modinv _ ra rm => s.x[rm] = 0#256 ∨ Nat.gcd s.x[ra].toNat s.x[rm].toNat ≠ 1
  | .lagcoef _ k t rm =>
    t = 0 ∨ s.x[rm] = 0#256 ∨ t ≤ k ∨ ∃ j < t, j ≠ k ∧ ¬ s.invertiblePair s.x[rm].toNat k j
  | .lagrecon _ t rm =>
    t = 0 ∨ s.x[rm] = 0#256 ∨ ∃ k < t, ∃ j < t, j ≠ k ∧ ¬ s.invertiblePair s.x[rm].toNat k j
  | .clear => False

end Sys2Proof.Machine
end

