-- ==== Sys2Proof/Certificates/Slice0/Obligations.lean ====
section
/-!
DEFINITION. The statements about the FAU, from the numbered rules of spec/. A transaction stands in them as the first
event of `host`, with its response in `response`: the model's own form of 00_scope.md R8 and 20_memory.md R67 (log 2).
Values are compared as naturals or integers, so that none says anything modulo 2^256. A statement of the form
`exec i s = .next { s with .. }` is the whole frame at once: every field not named is unchanged.
-/

open Sys2Proof Sys2Proof.Machine

/-! ### Encoding -/

/-- The decoder reads back every well-formed command, with every operand (30_encoding.md R87). -/
def Obligations.DecodeInvertsEncode : Prop :=
  ∀ i : Instr, i.wf = true → decode (encode i) = .ok i

/-- Every word that decodes is the encoding of the command it decodes to, and that command is well-formed: no word has
two readings and no bit of a command word is dropped (30_encoding.md R86, R87). -/
def Obligations.EncodeInvertsDecode : Prop :=
  ∀ (c : BusWord) (i : Instr), decode c = .ok i → encode i = c ∧ i.wf = true

/-- The opcode map, row by row with the masks and matches as R86 prints them; a word of no row is no command. -/
def Obligations.OpcodeMapDecodes : Prop :=
  ∀ c : BusWord,
    let rd : Reg := (c.extractLsb' 8 4).toFin
    let ra : Reg := (c.extractLsb' 12 4).toFin
    let rb : Reg := (c.extractLsb' 16 4).toFin
    let rm : Reg := (c.extractLsb' 20 4).toFin
    let i : Nat := (c.extractLsb' 12 4).toNat
    let t : Nat := (c.extractLsb' 24 5).toNat
    (c &&& 0xFF0F00FF#32 = 0x00000001#32 → decode c = .ok (.modred rd ra rm)) ∧
    (c &&& 0xFF0000FF#32 = 0x00000002#32 → decode c = .ok (.modadd rd ra rb rm)) ∧
    (c &&& 0xFF0000FF#32 = 0x00000003#32 → decode c = .ok (.modsub rd ra rb rm)) ∧
    (c &&& 0xFF0F00FF#32 = 0x00000004#32 → decode c = .ok (.modneg rd ra rm)) ∧
    (c &&& 0xFF0000FF#32 = 0x00000005#32 → decode c = .ok (.modmul rd ra rb rm)) ∧
    (c &&& 0xFF0000FF#32 = 0x00000010#32 → decode c = .ok (.modexp rd ra rb rm)) ∧
    (c &&& 0xFF0F00FF#32 = 0x00000011#32 → decode c = .ok (.modinv rd ra rm)) ∧
    (c &&& 0xE00F00FF#32 = 0x00000020#32 → decode c = .ok (.lagcoef rd i t rm)) ∧
    (c &&& 0xE00FF0FF#32 = 0x00000021#32 → decode c = .ok (.lagrecon rd t rm)) ∧
    (c &&& 0xFFFFFFFF#32 = 0x000000F0#32 → decode c = .ok .clear) ∧
    (c &&& 0xFF0F00FF#32 ≠ 0x00000001#32 → c &&& 0xFF0000FF#32 ≠ 0x00000002#32 →
      c &&& 0xFF0000FF#32 ≠ 0x00000003#32 → c &&& 0xFF0F00FF#32 ≠ 0x00000004#32 →
      c &&& 0xFF0000FF#32 ≠ 0x00000005#32 → c &&& 0xFF0000FF#32 ≠ 0x00000010#32 →
      c &&& 0xFF0F00FF#32 ≠ 0x00000011#32 → c &&& 0xE00F00FF#32 ≠ 0x00000020#32 →
      c &&& 0xE00FF0FF#32 ≠ 0x00000021#32 → c &&& 0xFFFFFFFF#32 ≠ 0x000000F0#32 →
      ∃ e, decode c = .error e)

/-- The encodings as the sums R87 gives. -/
def Obligations.EncodingIsTheFieldSum : Prop :=
  ∀ (rd ra rb rm : Reg) (i t : Nat), i < 16 → t < 32 →
    (encode (.modred rd ra rm)).toNat = 0x01 + rd.val * 2 ^ 8 + ra.val * 2 ^ 12 + rm.val * 2 ^ 20 ∧
    (encode (.modadd rd ra rb rm)).toNat =
      0x02 + rd.val * 2 ^ 8 + ra.val * 2 ^ 12 + rb.val * 2 ^ 16 + rm.val * 2 ^ 20 ∧
    (encode (.modsub rd ra rb rm)).toNat =
      0x03 + rd.val * 2 ^ 8 + ra.val * 2 ^ 12 + rb.val * 2 ^ 16 + rm.val * 2 ^ 20 ∧
    (encode (.modneg rd ra rm)).toNat = 0x04 + rd.val * 2 ^ 8 + ra.val * 2 ^ 12 + rm.val * 2 ^ 20 ∧
    (encode (.modmul rd ra rb rm)).toNat =
      0x05 + rd.val * 2 ^ 8 + ra.val * 2 ^ 12 + rb.val * 2 ^ 16 + rm.val * 2 ^ 20 ∧
    (encode (.modexp rd ra rb rm)).toNat =
      0x10 + rd.val * 2 ^ 8 + ra.val * 2 ^ 12 + rb.val * 2 ^ 16 + rm.val * 2 ^ 20 ∧
    (encode (.modinv rd ra rm)).toNat = 0x11 + rd.val * 2 ^ 8 + ra.val * 2 ^ 12 + rm.val * 2 ^ 20 ∧
    (encode (.lagcoef rd i t rm)).toNat =
      0x20 + rd.val * 2 ^ 8 + i * 2 ^ 12 + rm.val * 2 ^ 20 + t * 2 ^ 24 ∧
    (encode (.lagrecon rd t rm)).toNat = 0x21 + rd.val * 2 ^ 8 + rm.val * 2 ^ 20 + t * 2 ^ 24 ∧
    (encode .clear).toNat = 0xF0

/-- Command words of 95_test_vectors.md, one per command, decode to the commands they stand for. -/
def Obligations.SpecWordsDecode : Prop :=
  decode 0x00201301#32 = .ok (.modred 3 1 2) ∧ decode 0x00321402#32 = .ok (.modadd 4 1 2 3) ∧
  decode 0x00321403#32 = .ok (.modsub 4 1 2 3) ∧ decode 0x00201304#32 = .ok (.modneg 3 1 2) ∧
  decode 0x00321405#32 = .ok (.modmul 4 1 2 3) ∧ decode 0x00321410#32 = .ok (.modexp 4 1 2 3) ∧
  decode 0x00201311#32 = .ok (.modinv 3 1 2) ∧ decode 0x03101420#32 = .ok (.lagcoef 4 1 3 1) ∧
  decode 0x1F100421#32 = .ok (.lagrecon 4 31 1) ∧ decode 0x000000F0#32 = .ok .clear

/-- A word that is the encoding of no command raises IllegalCommand and changes nothing else; that covers every opcode
value outside the ten. A format L word with t in 17 .. 31 is legal and fails the COUNT test (R89, R184). The last
clause assumes the invariant COUNT ≤ 16 (see CountInvariantKept). -/
def Obligations.IllegalWordsRaiseIllegalCommand : Prop :=
  ∀ (s : State) (c : BusWord) (rest : List HostEvent),
    ((∀ i : Instr, i.wf = true → encode i ≠ c) →
      step { s with host := .write 0x000 (.single 4) c :: rest } =
        .next { s with host := rest, response := some .ok, err := 3#2 }) ∧
    (c.toNat % 256 ∉ [0x01, 0x02, 0x03, 0x04, 0x05, 0x10, 0x11, 0x20, 0x21, 0xF0] →
      ∀ i : Instr, i.wf = true → encode i ≠ c) ∧
    (∀ (rd rm : Reg) (k t : Nat), k < 16 → 17 ≤ t → t ≤ 31 → s.inv = true →
      decode (BitVec.ofNat 32 (0x20 + rd.val * 2 ^ 8 + k * 2 ^ 12 + rm.val * 2 ^ 20 + t * 2 ^ 24)) =
          .ok (.lagcoef rd k t rm) ∧
        exec (.lagcoef rd k t rm) s = .next { s with err := 2#2 } ∧
        decode (BitVec.ofNat 32 (0x21 + rd.val * 2 ^ 8 + rm.val * 2 ^ 20 + t * 2 ^ 24)) = .ok (.lagrecon rd t rm) ∧
        exec (.lagrecon rd t rm) s = .next { s with err := 2#2 })

/-- A step whose next host event is a CMD write of a command's word runs that command and answers OK; and
`withFetchWord` places exactly that event (20_memory.md R58, 30_encoding.md R88). -/
def Obligations.StepRunsDecodedCommand : Prop :=
  ∀ (s : State) (c : BusWord) (i : Instr) (rest : List HostEvent), decode c = .ok i →
    step { s with host := .write 0x000 (.single 4) c :: rest } =
      (match exec i { s with host := rest } with
        | .next t => .next { t with response := some .ok }
        | .fault f => .fault f
        | .refused r => .refused r) ∧
    s.withFetchWord 32 c.toNat = { s with host := .write 0x000 (.single 4) c :: s.host }

/-! ### Field arithmetic -/

/-- MODRED, whole: its word, its result, its error (40_field_arith.md R112). -/
def Obligations.ModredResult : Prop :=
  ∀ (s : State) (rd ra rm : Reg),
    decode (BitVec.ofNat 32 (0x01 + rd.val * 2 ^ 8 + ra.val * 2 ^ 12 + rm.val * 2 ^ 20)) = .ok (.modred rd ra rm) ∧
    (s.x[rm] = 0#256 → exec (.modred rd ra rm) s = .next { s with err := 1#2 }) ∧
    (s.x[rm] ≠ 0#256 → ∃ v : Word, v.toNat = s.x[ra].toNat % s.x[rm].toNat ∧
      exec (.modred rd ra rm) s = .next { s with x := s.x.set rd v, err := 0#2 })

/-- MODADD, whole (40_field_arith.md R113): the sum is not cut to 256 bits before the reduction. -/
def Obligations.ModaddResult : Prop :=
  ∀ (s : State) (rd ra rb rm : Reg),
    decode (BitVec.ofNat 32 (0x02 + rd.val * 2 ^ 8 + ra.val * 2 ^ 12 + rb.val * 2 ^ 16 + rm.val * 2 ^ 20)) =
      .ok (.modadd rd ra rb rm) ∧
    (s.x[rm] = 0#256 → exec (.modadd rd ra rb rm) s = .next { s with err := 1#2 }) ∧
    (s.x[rm] ≠ 0#256 → ∃ v : Word, v.toNat = (s.x[ra].toNat + s.x[rb].toNat) % s.x[rm].toNat ∧
      exec (.modadd rd ra rb rm) s = .next { s with x := s.x.set rd v, err := 0#2 })

/-- MODSUB, whole (40_field_arith.md R114): the residue of the integer difference, never negative and never the wrap
at 2^256. `%` on integers with a positive modulus is that residue (00_scope.md R10). -/
def Obligations.ModsubResult : Prop :=
  ∀ (s : State) (rd ra rb rm : Reg),
    decode (BitVec.ofNat 32 (0x03 + rd.val * 2 ^ 8 + ra.val * 2 ^ 12 + rb.val * 2 ^ 16 + rm.val * 2 ^ 20)) =
      .ok (.modsub rd ra rb rm) ∧
    (s.x[rm] = 0#256 → exec (.modsub rd ra rb rm) s = .next { s with err := 1#2 }) ∧
    (s.x[rm] ≠ 0#256 → ∃ v : Word,
      (v.toNat : Int) = ((s.x[ra].toNat : Int) - s.x[rb].toNat) % (s.x[rm].toNat : Int) ∧
      exec (.modsub rd ra rb rm) s = .next { s with x := s.x.set rd v, err := 0#2 })

/-- MODNEG, whole (40_field_arith.md R115). -/
def Obligations.ModnegResult : Prop :=
  ∀ (s : State) (rd ra rm : Reg),
    decode (BitVec.ofNat 32 (0x04 + rd.val * 2 ^ 8 + ra.val * 2 ^ 12 + rm.val * 2 ^ 20)) = .ok (.modneg rd ra rm) ∧
    (s.x[rm] = 0#256 → exec (.modneg rd ra rm) s = .next { s with err := 1#2 }) ∧
    (s.x[rm] ≠ 0#256 → ∃ v : Word,
      v.toNat = (s.x[rm].toNat - s.x[ra].toNat % s.x[rm].toNat) % s.x[rm].toNat ∧
      exec (.modneg rd ra rm) s = .next { s with x := s.x.set rd v, err := 0#2 })

/-- MODMUL, whole (40_field_arith.md R116): the 512-bit product is exact. -/
def Obligations.ModmulResult : Prop :=
  ∀ (s : State) (rd ra rb rm : Reg),
    decode (BitVec.ofNat 32 (0x05 + rd.val * 2 ^ 8 + ra.val * 2 ^ 12 + rb.val * 2 ^ 16 + rm.val * 2 ^ 20)) =
      .ok (.modmul rd ra rb rm) ∧
    (s.x[rm] = 0#256 → exec (.modmul rd ra rb rm) s = .next { s with err := 1#2 }) ∧
    (s.x[rm] ≠ 0#256 → ∃ v : Word, v.toNat = (s.x[ra].toNat * s.x[rb].toNat) % s.x[rm].toNat ∧
      exec (.modmul rd ra rb rm) s = .next { s with x := s.x.set rd v, err := 0#2 })

/-- The identities of 40_field_arith.md R118 as sequences of commands, with m = x[rm] ≠ 0 and a scratch register rn
that is neither the modulus nor a first source. The result register is read after each sequence. With m = 1 every
command of the family returns 0. -/
def Obligations.FieldIdentities : Prop :=
  ∀ (s : State) (rd rn ra rb rm : Reg), s.x[rm] ≠ 0#256 → rn ≠ rm → rn ≠ ra →
    (∃ s1 s2 s3, exec (.modneg rn rb rm) s = .next s1 ∧ exec (.modadd rd ra rn rm) s1 = .next s2 ∧
      exec (.modsub rd ra rb rm) s = .next s3 ∧ s2.x[rd] = s3.x[rd]) ∧
    (∃ s1 s2, exec (.modneg rn ra rm) s = .next s1 ∧ exec (.modadd rd ra rn rm) s1 = .next s2 ∧ s2.x[rd] = 0#256) ∧
    (∃ s1 s2, exec (.modneg rn ra rm) s = .next s1 ∧ exec (.modneg rd rn rm) s1 = .next s2 ∧
      s2.x[rd].toNat = s.x[ra].toNat % s.x[rm].toNat) ∧
    (s.x[rb] = 1#256 → ∃ s1 s2, exec (.modmul rd ra rb rm) s = .next s1 ∧ exec (.modred rd ra rm) s = .next s2 ∧
      s1 = s2) ∧
    (∃ s1 s2, exec (.modred rn ra rm) s = .next s1 ∧ exec (.modred rd rn rm) s1 = .next s2 ∧ s2.x[rd] = s1.x[rn]) ∧
    (s.x[rm] = 1#256 →
      ∀ i ∈ [Instr.modred rd ra rm, .modadd rd ra rb rm, .modsub rd ra rb rm, .modneg rd ra rm, .modmul rd ra rb rm],
        exec i s = .next { s with x := s.x.set rd 0#256, err := 0#2 })

/-- Every completed command with a destination leaves a result below its modulus, which is its last source
(10_state.md R23, 40_field_arith.md R117). -/
def Obligations.ResultBelowModulus : Prop :=
  ∀ (i : Instr) (s t : State) (rd rm : Reg), i.dest = some rd → i.sources.getLast? = some rm →
    exec i s = .next t → t.err = 0#2 → t.x[rd].toNat < s.x[rm].toNat

/-! ### Modular exponentiation and inverse -/

/-- MODEXP, whole: the loop of R132 returns the power of R131, with the full 256-bit exponent. -/
def Obligations.ModexpResult : Prop :=
  ∀ (s : State) (rd ra rb rm : Reg),
    decode (BitVec.ofNat 32 (0x10 + rd.val * 2 ^ 8 + ra.val * 2 ^ 12 + rb.val * 2 ^ 16 + rm.val * 2 ^ 20)) =
      .ok (.modexp rd ra rb rm) ∧
    (s.x[rm] = 0#256 → exec (.modexp rd ra rb rm) s = .next { s with err := 1#2 }) ∧
    (s.x[rm] ≠ 0#256 → ∃ v : Word,
      v.toNat = (s.x[ra].toNat % s.x[rm].toNat) ^ s.x[rb].toNat % s.x[rm].toNat ∧
      exec (.modexp rd ra rb rm) s = .next { s with x := s.x.set rd v, err := 0#2 })

/-- The rows of 41_modexp.md R133 about values, with m = x[rm] ≠ 0: exponent 0, modulus 1, a base congruent to 0 or 1,
exponent 1, and Fermat's theorem for a prime modulus. -/
def Obligations.ModexpCorners : Prop :=
  ∀ (s : State) (rd ra rb rm : Reg), s.x[rm] ≠ 0#256 →
    ∃ v : Word, exec (.modexp rd ra rb rm) s = .next { s with x := s.x.set rd v, err := 0#2 } ∧
      (s.x[rb] = 0#256 → s.x[rm] ≠ 1#256 → v = 1#256) ∧
      (s.x[rm] = 1#256 → v = 0#256) ∧
      (s.x[ra].toNat % s.x[rm].toNat = 0 → s.x[rb] ≠ 0#256 → v = 0#256) ∧
      (s.x[ra].toNat % s.x[rm].toNat = 1 → v = 1#256) ∧
      (s.x[rb] = 1#256 → v.toNat = s.x[ra].toNat % s.x[rm].toNat) ∧
      (s.x[rm].toNat.Prime → s.x[ra].toNat % s.x[rm].toNat ≠ 0 → s.x[rb].toNat = s.x[rm].toNat - 1 → v = 1#256)

/-- MODINV, whole (42_modinv.md R141): the one inverse in [0, m) when gcd(a, m) = 1, and DomainError otherwise. -/
def Obligations.ModinvResult : Prop :=
  ∀ (s : State) (rd ra rm : Reg),
    decode (BitVec.ofNat 32 (0x11 + rd.val * 2 ^ 8 + ra.val * 2 ^ 12 + rm.val * 2 ^ 20)) = .ok (.modinv rd ra rm) ∧
    (s.x[rm] = 0#256 → exec (.modinv rd ra rm) s = .next { s with err := 1#2 }) ∧
    (s.x[rm] ≠ 0#256 → Nat.gcd s.x[ra].toNat s.x[rm].toNat ≠ 1 →
      exec (.modinv rd ra rm) s = .next { s with err := 1#2 }) ∧
    (s.x[rm] ≠ 0#256 → Nat.gcd s.x[ra].toNat s.x[rm].toNat = 1 → ∃ v : Word,
      v.toNat < s.x[rm].toNat ∧ s.x[ra].toNat * v.toNat % s.x[rm].toNat = 1 % s.x[rm].toNat ∧
      (∀ y < s.x[rm].toNat, s.x[ra].toNat * y % s.x[rm].toNat = 1 % s.x[rm].toNat → y = v.toNat) ∧
      exec (.modinv rd ra rm) s = .next { s with x := s.x.set rd v, err := 0#2 })

/-- The laws of 42_modinv.md R144 as sequences of commands: the inverse times the operand is 1 mod m, the inverse of
the inverse is the operand mod m, and an operand and its residue have the same outcome. -/
def Obligations.ModinvLaws : Prop :=
  ∀ (s : State) (rd rn ra rm : Reg), s.x[rm] ≠ 0#256 → rn ≠ rm → rn ≠ ra →
    (Nat.gcd s.x[ra].toNat s.x[rm].toNat = 1 →
      (∃ s1 s2, exec (.modinv rn ra rm) s = .next s1 ∧ exec (.modmul rd ra rn rm) s1 = .next s2 ∧
        s2.err = 0#2 ∧ s2.x[rd].toNat = 1 % s.x[rm].toNat) ∧
      (∃ s1 s2, exec (.modinv rn ra rm) s = .next s1 ∧ exec (.modinv rd rn rm) s1 = .next s2 ∧
        s2.err = 0#2 ∧ s2.x[rd].toNat = s.x[ra].toNat % s.x[rm].toNat)) ∧
    (∃ s1 s2 s3, exec (.modred rn ra rm) s = .next s1 ∧ exec (.modinv rn rn rm) s1 = .next s2 ∧
      exec (.modinv rn ra rm) s = .next s3 ∧ s2.err = s3.err ∧ (s3.err = 0#2 → s2 = s3))

/-- The rows of 42_modinv.md R143 about modulus 1, operands congruent to 0, 1 and m - 1, and a prime modulus. -/
def Obligations.ModinvCorners : Prop :=
  ∀ (s : State) (rd ra rm : Reg),
    (s.x[rm] = 1#256 → exec (.modinv rd ra rm) s = .next { s with x := s.x.set rd 0#256, err := 0#2 }) ∧
    (1 < s.x[rm].toNat →
      (s.x[ra].toNat % s.x[rm].toNat = 0 → exec (.modinv rd ra rm) s = .next { s with err := 1#2 }) ∧
      (s.x[ra].toNat % s.x[rm].toNat = 1 →
        exec (.modinv rd ra rm) s = .next { s with x := s.x.set rd 1#256, err := 0#2 }) ∧
      (s.x[ra].toNat % s.x[rm].toNat = s.x[rm].toNat - 1 →
        exec (.modinv rd ra rm) s = .next { s with x := s.x.set rd (s.x[rm] - 1#256), err := 0#2 }) ∧
      (s.x[rm].toNat.Prime → s.x[ra].toNat % s.x[rm].toNat ≠ 0 →
        ∃ v : Word, exec (.modinv rd ra rm) s = .next { s with x := s.x.set rd v, err := 0#2 }))

/-! ### Lagrange -/

/-- Fewer than t shares: both Lagrange commands raise InsufficientSharesError and write nothing else, whatever else is
wrong (43_lagrange.md R152, 60_exceptions.md R182). Under the invariant COUNT ≤ 16, so does every t above 16. -/
def Obligations.InsufficientShares : Prop :=
  ∀ (s : State) (rd rm : Reg) (i t : Nat),
    (s.count.toNat < t →
      exec (.lagcoef rd i t rm) s = .next { s with err := 2#2 } ∧
      exec (.lagrecon rd t rm) s = .next { s with err := 2#2 }) ∧
    (s.inv = true → 17 ≤ t →
      exec (.lagcoef rd i t rm) s = .next { s with err := 2#2 } ∧
      exec (.lagrecon rd t rm) s = .next { s with err := 2#2 })

/-- The operand errors of the Lagrange commands, once the COUNT test passes: t = 0, m = 0 and, for LAGCOEF only, i ≥ t
(43_lagrange.md R153). -/
def Obligations.LagrangeOperandErrors : Prop :=
  ∀ (s : State) (rd rm : Reg) (i t : Nat), t ≤ s.count.toNat →
    (t = 0 ∨ s.x[rm] = 0#256 →
      exec (.lagcoef rd i t rm) s = .next { s with err := 1#2 } ∧
      exec (.lagrecon rd t rm) s = .next { s with err := 1#2 }) ∧
    (t ≤ i → exec (.lagcoef rd i t rm) s = .next { s with err := 1#2 })

/-- LAGCOEF, whole (43_lagrange.md R154, R155), with m = x[rm]: its word, its two checks in order, and past them
DomainError exactly when a denominator factor of slot i has no inverse mod m, and otherwise the one v in [0, m) with
v * Π (x_i - x_j) ≡ Π (-x_j) mod m. -/
def Obligations.LagcoefResult : Prop :=
  ∀ (s : State) (rd rm : Reg) (i t : Nat), i < 16 → t < 32 →
    decode (BitVec.ofNat 32 (0x20 + rd.val * 2 ^ 8 + i * 2 ^ 12 + rm.val * 2 ^ 20 + t * 2 ^ 24)) =
      .ok (.lagcoef rd i t rm) ∧
    (s.count.toNat < t → exec (.lagcoef rd i t rm) s = .next { s with err := 2#2 }) ∧
    (t ≤ s.count.toNat → t = 0 ∨ s.x[rm] = 0#256 ∨ t ≤ i →
      exec (.lagcoef rd i t rm) s = .next { s with err := 1#2 }) ∧
    (t ≤ s.count.toNat → i < t → s.x[rm] ≠ 0#256 →
      ((∃ j < t, j ≠ i ∧ ¬ s.invertiblePair s.x[rm].toNat i j) →
        exec (.lagcoef rd i t rm) s = .next { s with err := 1#2 }) ∧
      ((∀ j < t, j ≠ i → s.invertiblePair s.x[rm].toNat i j) →
        ∃ v : Word, v.toNat < s.x[rm].toNat ∧
          (v.toNat : Int) * s.denominator t i ≡ s.numerator t i [ZMOD s.x[rm].toNat] ∧
          (∀ y < s.x[rm].toNat, (y : Int) * s.denominator t i ≡ s.numerator t i [ZMOD s.x[rm].toNat] → y = v.toNat) ∧
          exec (.lagcoef rd i t rm) s = .next { s with x := s.x.set rd v, err := 0#2 }))

/-- LAGRECON, whole (43_lagrange.md R156), with m = x[rm]: its word, its two checks in order, and past them DomainError
exactly when a denominator factor of two used slots has no inverse mod m, and otherwise the sum of f_i * L_i in [0, m),
L_i being the coefficients. -/
def Obligations.LagreconResult : Prop :=
  ∀ (s : State) (rd rm : Reg) (t : Nat), t < 32 →
    decode (BitVec.ofNat 32 (0x21 + rd.val * 2 ^ 8 + rm.val * 2 ^ 20 + t * 2 ^ 24)) = .ok (.lagrecon rd t rm) ∧
    (s.count.toNat < t → exec (.lagrecon rd t rm) s = .next { s with err := 2#2 }) ∧
    (t ≤ s.count.toNat → t = 0 ∨ s.x[rm] = 0#256 → exec (.lagrecon rd t rm) s = .next { s with err := 1#2 }) ∧
    (t ≤ s.count.toNat → t ≠ 0 → s.x[rm] ≠ 0#256 →
      ((∃ i < t, ∃ j < t, j ≠ i ∧ ¬ s.invertiblePair s.x[rm].toNat i j) →
        exec (.lagrecon rd t rm) s = .next { s with err := 1#2 }) ∧
      ((∀ i < t, ∀ j < t, j ≠ i → s.invertiblePair s.x[rm].toNat i j) →
        ∃ (v : Word) (l : Nat → Int), v.toNat < s.x[rm].toNat ∧
          (∀ i < t, l i * s.denominator t i ≡ s.numerator t i [ZMOD s.x[rm].toNat]) ∧
          (v.toNat : Int) ≡ ∑ i ∈ Finset.range t, (s.slotF i : Int) * l i [ZMOD s.x[rm].toNat] ∧
          exec (.lagrecon rd t rm) s = .next { s with x := s.x.set rd v, err := 0#2 }))

/-- LAGRECON is the sum of the table's values times what LAGCOEF returns for each slot (43_lagrange.md R158 item 4). -/
def Obligations.LagreconSumsCoefficients : Prop :=
  ∀ (s : State) (rd rm : Reg) (t : Nat) (v : Word),
    exec (.lagrecon rd t rm) s = .next { s with x := s.x.set rd v, err := 0#2 } →
    ∃ l : Nat → Word,
      (∀ i < t, exec (.lagcoef rd i t rm) s = .next { s with x := s.x.set rd (l i), err := 0#2 }) ∧
      v.toNat = (∑ i ∈ Finset.range t, s.slotF i * (l i).toNat) % s.x[rm].toNat

/-- The secret comes back: for a prime modulus, t shares with indices distinct mod m and values those of one polynomial
of degree below t with coefficients a (low to high), LAGRECON writes the polynomial's value at 0, its coefficient 0
(43_lagrange.md R158 items 2 and 5: slots t and above do not matter). -/
def Obligations.LagreconRecoversSecret : Prop :=
  ∀ (s : State) (rd rm : Reg) (t : Nat) (a : Nat → Nat),
    s.x[rm].toNat.Prime → 1 ≤ t → t ≤ s.count.toNat →
    (∀ i < t, ∀ j < t, i ≠ j → s.slotX i % s.x[rm].toNat ≠ s.slotX j % s.x[rm].toNat) →
    (∀ i < t, s.slotF i % s.x[rm].toNat = (∑ k ∈ Finset.range t, a k * s.slotX i ^ k) % s.x[rm].toNat) →
    ∃ v : Word, v.toNat = a 0 % s.x[rm].toNat ∧
      exec (.lagrecon rd t rm) s = .next { s with x := s.x.set rd v, err := 0#2 }

/-- For a prime modulus and indices distinct mod m, the coefficients LAGCOEF returns sum to 1 mod m (43_lagrange.md
R158 item 1). -/
def Obligations.CoefficientsSumToOne : Prop :=
  ∀ (s : State) (rd rm : Reg) (t : Nat), s.x[rm].toNat.Prime → 1 ≤ t → t ≤ s.count.toNat →
    (∀ i < t, ∀ j < t, i ≠ j → s.slotX i % s.x[rm].toNat ≠ s.slotX j % s.x[rm].toNat) →
    ∃ l : Nat → Word,
      (∀ i < t, exec (.lagcoef rd i t rm) s = .next { s with x := s.x.set rd (l i), err := 0#2 }) ∧
      (∑ i ∈ Finset.range t, (l i).toNat) % s.x[rm].toNat = 1

/-- Order of the shares: if the used slots of s' are a permutation of those of s, LAGRECON has the same outcome in both,
and LAGCOEF of a slot of s' that of the slot it came from, whatever the modulus (43_lagrange.md R158 item 3). -/
def Obligations.ShareOrderDoesNotMatter : Prop :=
  ∀ (s s' : State) (rd rm : Reg) (t : Nat) (p : Equiv.Perm Nat),
    (∀ n, p n < t ↔ n < t) → s'.x = s.x → s'.count = s.count →
    (∀ n < t, s'.slotX n = s.slotX (p n) ∧ s'.slotF n = s.slotF (p n)) →
    (∃ u u', exec (.lagrecon rd t rm) s = .next u ∧ exec (.lagrecon rd t rm) s' = .next u' ∧
      u'.x = u.x ∧ u'.err = u.err) ∧
    (∀ i < t, ∃ u u', exec (.lagcoef rd (p i) t rm) s = .next u ∧ exec (.lagcoef rd i t rm) s' = .next u' ∧
      u'.x = u.x ∧ u'.err = u.err)

/-- Two used slots with indices congruent mod m, m > 1: LAGRECON raises DomainError, and so does LAGCOEF of either
slot; no result is written (43_lagrange.md R150, R157). -/
def Obligations.DuplicateIndexFails : Prop :=
  ∀ (s : State) (rd rm : Reg) (t i j : Nat), t ≤ s.count.toNat → i < t → j < t → i ≠ j → 1 < s.x[rm].toNat →
    s.slotX i % s.x[rm].toNat = s.slotX j % s.x[rm].toNat →
    exec (.lagrecon rd t rm) s = .next { s with err := 1#2 } ∧
    exec (.lagcoef rd i t rm) s = .next { s with err := 1#2 } ∧
    exec (.lagcoef rd j t rm) s = .next { s with err := 1#2 }

/-- The rows of 43_lagrange.md R157 about values, for 1 ≤ t ≤ COUNT and i < t: one slot, modulus 1, and an index
congruent to 0. -/
def Obligations.LagrangeCorners : Prop :=
  ∀ (s : State) (rd rm : Reg) (i t : Nat), t ≤ s.count.toNat → i < t → s.x[rm] ≠ 0#256 →
    (s.x[rm] = 1#256 →
      exec (.lagcoef rd i t rm) s = .next { s with x := s.x.set rd 0#256, err := 0#2 } ∧
      exec (.lagrecon rd t rm) s = .next { s with x := s.x.set rd 0#256, err := 0#2 }) ∧
    (t = 1 → s.x[rm] ≠ 1#256 →
      exec (.lagcoef rd i t rm) s = .next { s with x := s.x.set rd 1#256, err := 0#2 } ∧
      ∃ v : Word, v.toNat = s.slotF 0 % s.x[rm].toNat ∧
        exec (.lagrecon rd t rm) s = .next { s with x := s.x.set rd v, err := 0#2 }) ∧
    ((∀ k < t, k ≠ i → s.invertiblePair s.x[rm].toNat i k) →
      (∃ j < t, j ≠ i ∧ s.slotX j % s.x[rm].toNat = 0) →
      exec (.lagcoef rd i t rm) s = .next { s with x := s.x.set rd 0#256, err := 0#2 }) ∧
    ((∀ k < t, k ≠ i → s.invertiblePair s.x[rm].toNat i k) → s.slotX i % s.x[rm].toNat = 0 →
      ∃ v : Word, v.toNat = 1 % s.x[rm].toNat ∧
        exec (.lagcoef rd i t rm) s = .next { s with x := s.x.set rd v, err := 0#2 }) ∧
    ((∀ k < t, ∀ j < t, j ≠ k → s.invertiblePair s.x[rm].toNat k j) → s.slotX i % s.x[rm].toNat = 0 →
      ∃ v : Word, v.toNat = s.slotF i % s.x[rm].toNat ∧
        exec (.lagrecon rd t rm) s = .next { s with x := s.x.set rd v, err := 0#2 })

/-! ### CLEAR and reset -/

/-- CLEAR, whole (44_system.md R170): its word, every register, table field, COUNT and STATUS.ERR 0, in every state; and
a word with opcode 0xF0 and any 1 above it is illegal and clears nothing. -/
def Obligations.ClearZeroises : Prop :=
  decode 0x000000F0#32 = .ok .clear ∧
  (∀ s : State, exec .clear s = .next
    { x := Vector.replicate 16 0#256, tX := Vector.replicate 16 0#256, tF := Vector.replicate 16 0#256, count := 0#5,
      err := 0#2, host := s.host, response := s.response }) ∧
  ∀ (s : State) (c : BusWord), c.toNat % 256 = 0xF0 → c ≠ 0x000000F0#32 →
    runCommand c s = .next { s with err := 3#2 }

/-- After CLEAR every accepted read of every offset returns 0 (44_system.md R171). -/
def Obligations.ClearedWindowReadsZero : Prop :=
  ∀ (s t : State) (off : Nat) (size : AccessSize), exec .clear s = .next t →
    t.memRead off size = .okData 0#32 ∨ t.memRead off size = .busError

/-- The reset values of 10_state.md R36, register by register and slot by slot, STATUS and CMD as read, and CLEAR's
state the same. The two fields of the model's own are its choice (log 2) and are not stated here. -/
def Obligations.ResetValues : Prop :=
  (∀ n : Reg, State.reset.x[n] = 0#256) ∧ (∀ n : Slot, State.reset.tX[n] = 0#256 ∧ State.reset.tF[n] = 0#256) ∧
  State.reset.count = 0#5 ∧ State.reset.err = 0#2 ∧
  State.reset.memRead 0x004 (.single 4) = .okData 0#32 ∧ State.reset.memRead 0x000 (.single 4) = .okData 0#32 ∧
  ∀ s t : State, exec .clear s = .next t →
    t.x = State.reset.x ∧ t.tX = State.reset.tX ∧ t.tF = State.reset.tF ∧ t.count = State.reset.count ∧
      t.err = State.reset.err

/-- A reset event gives every piece of state its reset value, whatever was there (70_reset_and_hazards.md R200). That
the outside world's later events stay, and that no response is given, is the model's choice (log 2). -/
def Obligations.ResetEventResets : Prop :=
  ∀ (s : State) (rest : List HostEvent), step { s with host := .reset :: rest } = .next
    { x := Vector.replicate 16 0#256, tX := Vector.replicate 16 0#256, tF := Vector.replicate 16 0#256, count := 0#5,
      err := 0#2, host := rest, response := none }

/-! ### Errors and STATUS -/

/-- One error, the first that applies (60_exceptions.md R185), with the causes R181, R182 and R184 list: STATUS.ERR
after a CMD write is 3 for a word that is no command; else 2 for COUNT < t; else 1 for a cause of DomainError; else 0. -/
def Obligations.ErrorCodesAndPriority : Prop :=
  ∀ (s : State) (c : BusWord),
    ((∀ i, decode c ≠ .ok i) → ∃ t, runCommand c s = .next t ∧ t.err = 3#2) ∧
    (∀ i, decode c = .ok i → ∃ t, runCommand c s = .next t ∧
      (insufficientCause i s → t.err = 2#2) ∧
      (¬ insufficientCause i s → domainCause i s → t.err = 1#2) ∧
      (¬ insufficientCause i s → ¬ domainCause i s → t.err = 0#2))

/-- The effect of an error (60_exceptions.md R187): the CMD write answers OK, and if STATUS.ERR is then not 0, nothing
but STATUS.ERR changed. For every command word in every state. -/
def Obligations.ErrorChangesOnlyStatus : Prop :=
  ∀ (s : State) (c : BusWord) (rest : List HostEvent), ∃ t,
    step { s with host := .write 0x000 (.single 4) c :: rest } = .next t ∧ t.response = some .ok ∧
    (t.err ≠ 0#2 → t = { s with host := rest, response := some .ok, err := t.err })

/-- STATUS.ERR is not sticky: what a command does, and the code it leaves, do not depend on the code before it
(10_state.md R30, 60_exceptions.md R190). -/
def Obligations.StatusIsOverwritten : Prop :=
  ∀ (s : State) (c : BusWord) (e : BitVec 2), runCommand c { s with err := e } = runCommand c s

/-- A failed command, issued again without changing its sources, fails again with the same code (60_exceptions.md
R191). -/
def Obligations.FailureIsNotTransient : Prop :=
  ∀ (s t : State) (c : BusWord), runCommand c s = .next t → t.err ≠ 0#2 → runCommand c t = .next t

/-- An outcome depends on the named sources alone (40_field_arith.md R117 item 6, 60_exceptions.md R191): two states
that agree on a command's source registers and, for a Lagrange command, on COUNT and on the used slots' X (LAGRECON: and
F), end with the same code and, if it is 0, the same result. LAGCOEF does not read F (10_state.md R25). -/
def Obligations.OutcomeDependsOnSourcesOnly : Prop :=
  ∀ (i : Instr) (s u : State), (∀ r ∈ i.sources, s.x[r] = u.x[r]) →
    (∀ rd k t rm, i = .lagcoef rd k t rm → s.count = u.count ∧ ∀ n < t, s.slotX n = u.slotX n) →
    (∀ rd t rm, i = .lagrecon rd t rm →
      s.count = u.count ∧ ∀ n < t, s.slotX n = u.slotX n ∧ s.slotF n = u.slotF n) →
    ∃ s' u', exec i s = .next s' ∧ exec i u = .next u' ∧ s'.err = u'.err ∧
      (s'.err = 0#2 → ∀ rd, i.dest = some rd → s'.x[rd] = u'.x[rd])

/-- The frame of every command with a destination (10_state.md R21, R25, R27): other registers, the table, COUNT and
what the outside world holds are unchanged, and every read of the window outside the destination's 32 bytes and STATUS
gives what it gave before. -/
def Obligations.CommandFrame : Prop :=
  ∀ (i : Instr) (s : State) (rd : Reg), i.dest = some rd →
    ∃ t, exec i s = .next t ∧ t.tX = s.tX ∧ t.tF = s.tF ∧ t.count = s.count ∧ t.host = s.host ∧
      t.response = s.response ∧ (∀ n : Reg, n ≠ rd → t.x[n] = s.x[n]) ∧
      (∀ (off : Nat) (size : AccessSize), off ≠ 0x004 → (off < 0x200 + 32 * rd.val ∨ 0x200 + 32 * rd.val + 32 ≤ off) →
        t.memRead off size = s.memRead off size)

/-! ### The window -/

/-- What every read returns, and that it changes nothing but the model's list of events to come and its
response (20_memory.md R56; log 2). -/
def Obligations.WindowReads : Prop :=
  ∀ (s : State) (rest : List HostEvent) (n : Reg) (k : Limb),
    step { s with host := .read 0x000 (.single 4) :: rest } =
      .next { s with host := rest, response := some (.okData 0#32) } ∧
    step { s with host := .read 0x004 (.single 4) :: rest } =
      .next { s with host := rest, response := some (.okData (s.err.setWidth 32)) } ∧
    step { s with host := .read 0x008 (.single 4) :: rest } =
      .next { s with host := rest, response := some (.okData (s.count.setWidth 32)) } ∧
    step { s with host := .read (0x200 + 32 * n.val + 4 * k.val) (.single 4) :: rest } =
      .next { s with host := rest, response := some (.okData (s.x[n].extractLsb' (224 - 32 * k.val) 32)) } ∧
    step { s with host := .read (0x400 + 64 * n.val + 4 * k.val) (.single 4) :: rest } =
      .next { s with host := rest, response := some (.okData (s.tX[n].extractLsb' (224 - 32 * k.val) 32)) } ∧
    step { s with host := .read (0x400 + 64 * n.val + 32 + 4 * k.val) (.single 4) :: rest } =
      .next { s with host := rest, response := some (.okData (s.tF[n].extractLsb' (224 - 32 * k.val) 32)) }

/-- What every write does (20_memory.md R57): CMD runs the word, STATUS ignores it, COUNT saturates at 16, and a limb is
replaced in its value with no effect elsewhere. -/
def Obligations.WindowWrites : Prop :=
  ∀ (s : State) (rest : List HostEvent) (v : BusWord) (n : Reg) (k : Limb),
    step { s with host := .write 0x000 (.single 4) v :: rest } =
      (match runCommand v { s with host := rest } with
        | .next t => .next { t with response := some .ok }
        | .fault f => .fault f
        | .refused r => .refused r) ∧
    step { s with host := .write 0x004 (.single 4) v :: rest } =
      .next { s with host := rest, response := some .ok } ∧
    (∃ c : BitVec 5, c.toNat = min v.toNat 16 ∧
      step { s with host := .write 0x008 (.single 4) v :: rest } =
        .next { s with host := rest, response := some .ok, count := c }) ∧
    (∃ w : Word, w.toNat =
        s.x[n].toNat - (s.x[n].extractLsb' (224 - 32 * k.val) 32).toNat * 2 ^ (224 - 32 * k.val)
          + v.toNat * 2 ^ (224 - 32 * k.val) ∧
      step { s with host := .write (0x200 + 32 * n.val + 4 * k.val) (.single 4) v :: rest } =
        .next { s with host := rest, response := some .ok, x := s.x.set n w }) ∧
    (∃ w : Word, w.toNat =
        s.tX[n].toNat - (s.tX[n].extractLsb' (224 - 32 * k.val) 32).toNat * 2 ^ (224 - 32 * k.val)
          + v.toNat * 2 ^ (224 - 32 * k.val) ∧
      step { s with host := .write (0x400 + 64 * n.val + 4 * k.val) (.single 4) v :: rest } =
        .next { s with host := rest, response := some .ok, tX := s.tX.set n w }) ∧
    (∃ w : Word, w.toNat =
        s.tF[n].toNat - (s.tF[n].extractLsb' (224 - 32 * k.val) 32).toNat * 2 ^ (224 - 32 * k.val)
          + v.toNat * 2 ^ (224 - 32 * k.val) ∧
      step { s with host := .write (0x400 + 64 * n.val + 32 + 4 * k.val) (.single 4) v :: rest } =
        .next { s with host := rest, response := some .ok, tF := s.tF.set n w })

/-- Which accesses the window accepts, and the response of each transaction (20_memory.md R55, R67, 60_exceptions.md
R195): an access that is not a 32-bit access at a mapped multiple of 4 gets BusError and changes nothing; an accepted
read gets OK with data, an accepted write OK. -/
def Obligations.BusErrorExactly : Prop :=
  ∀ (s : State) (rest : List HostEvent) (off : Nat) (size : AccessSize) (v : BusWord),
    let accepted := size = .single 4 ∧ off % 4 = 0 ∧ (off < 0x00C ∨ (0x200 ≤ off ∧ off < 0x800))
    (¬ accepted →
      step { s with host := .read off size :: rest } = .next { s with host := rest, response := some .busError } ∧
      step { s with host := .write off size v :: rest } = .next { s with host := rest, response := some .busError }) ∧
    (accepted →
      (∃ d, step { s with host := .read off size :: rest } =
        .next { s with host := rest, response := some (.okData d) }) ∧
      (∃ t, step { s with host := .write off size v :: rest } = .next t ∧ t.response = some .ok))

/-- The inverse maps of 20_memory.md R52 and R53: which register, slot, field and limb an offset reaches. -/
def Obligations.OffsetReachesItsLimb : Prop :=
  ∀ (s : State) (off : Nat), off % 4 = 0 →
    (0x200 ≤ off → off < 0x400 → ∃ (n : Reg) (k : Limb), n.val = (off - 0x200) / 32 ∧ k.val = (off - 0x200) % 32 / 4 ∧
      s.memRead off (.single 4) = .okData (s.x[n].extractLsb' (224 - 32 * k.val) 32)) ∧
    (0x400 ≤ off → off < 0x800 → ∃ (n : Slot) (k : Limb), n.val = (off - 0x400) / 64 ∧ k.val = (off - 0x400) % 32 / 4 ∧
      ((off - 0x400) % 64 < 32 → s.memRead off (.single 4) = .okData (s.tX[n].extractLsb' (224 - 32 * k.val) 32)) ∧
      (32 ≤ (off - 0x400) % 64 → s.memRead off (.single 4) = .okData (s.tF[n].extractLsb' (224 - 32 * k.val) 32)))

/-- Limb 0 is the most significant: limb k is v[255-32k : 224-32k] and a value is its eight limbs in order; byte j of
the canonical byte image is v[255-8j : 248-8j], the byte j mod 4 of limb j div 4, most significant first
(20_memory.md R54). -/
def Obligations.LimbsAreBigEndian : Prop :=
  ∀ v : Word,
    (∀ k : Limb, (limb v k).toNat = v.toNat / 2 ^ (224 - 32 * k.val) % 2 ^ 32) ∧
    v.toNat = (limb v 0).toNat * 2 ^ 224 + (limb v 1).toNat * 2 ^ 192 + (limb v 2).toNat * 2 ^ 160 +
      (limb v 3).toNat * 2 ^ 128 + (limb v 4).toNat * 2 ^ 96 + (limb v 5).toNat * 2 ^ 64 + (limb v 6).toNat * 2 ^ 32 +
      (limb v 7).toNat ∧
    ∀ j : Fin 32, (wordByte v j).toNat = v.toNat / 2 ^ (248 - 8 * j.val) % 2 ^ 8 ∧
      ∀ k : Limb, k.val = j.val / 4 → (wordByte v j).toNat = (limb v k).toNat / 2 ^ (24 - 8 * (j.val % 4)) % 2 ^ 8

/-- Read after write (20_memory.md R57, R61): a written limb reads as it was written, and every other offset of the
window, of any access size, reads as before. -/
def Obligations.ReadAfterWrite : Prop :=
  ∀ (s t : State) (rest : List HostEvent) (off : Nat) (v : BusWord), off % 4 = 0 → 0x200 ≤ off → off < 0x800 →
    step { s with host := .write off (.single 4) v :: rest } = .next t →
    t.memRead off (.single 4) = .okData v ∧
    ∀ (o : Nat) (size : AccessSize), o ≠ off → t.memRead o size = s.memRead o size

/-- The eight limb writes of a value, in any order, leave the register, index field or value field holding it, and
nothing else changed (20_memory.md R57, 70_reset_and_hazards.md R207, 30_encoding.md R92). -/
def Obligations.EightLimbWritesInAnyOrder : Prop :=
  ∀ (s : State) (rest : List HostEvent) (n : Reg) (v : Word) (order : List Limb), order.Perm (List.finRange 8) →
    let writes (base : Nat) : List HostEvent :=
      order.map fun k => .write (base + 4 * k.val) (.single 4) (v.extractLsb' (224 - 32 * k.val) 32)
    Sys2Proof.core.run 8 { s with host := writes (0x200 + 32 * n.val) ++ rest } =
      .next { s with host := rest, response := some .ok, x := s.x.set n v } ∧
    Sys2Proof.core.run 8 { s with host := writes (0x400 + 64 * n.val) ++ rest } =
      .next { s with host := rest, response := some .ok, tX := s.tX.set n v } ∧
    Sys2Proof.core.run 8 { s with host := writes (0x400 + 64 * n.val + 32) ++ rest } =
      .next { s with host := rest, response := some .ok, tF := s.tF.set n v }

/-- An event that is neither a CMD write nor a reset keeps STATUS.ERR (10_state.md R29, R30, 60_exceptions.md R195):
only a command writes it. -/
def Obligations.OnlyCommandsWriteStatus : Prop :=
  ∀ (s t : State) (e : HostEvent) (rest : List HostEvent), e ≠ .reset →
    (∀ c, e ≠ .write 0x000 (.single 4) c) → step { s with host := e :: rest } = .next t → t.err = s.err

/-! ### The whole machine -/

/-- Each step takes exactly the host's next event, in order, and never stops. For a transaction the order is
20_memory.md R58 and R61; for a reset event, that the events after it stay is the model's choice and no rule of the
spec (log 2). The list of events is itself the model's own form of the outside world (log 2). -/
def Obligations.EventsAreTakenInOrder : Prop :=
  ∀ (s : State) (e : HostEvent) (rest : List HostEvent),
    ∃ t, step { s with host := e :: rest } = .next t ∧ t.host = rest

/-- With nothing to come from outside, the machine does nothing: the engine never takes a step of its own (00_scope.md
R6). That such a step is a next state equal to the state is the model's choice (log 4). -/
def Obligations.IdleDoesNothing : Prop :=
  ∀ s : State, s.host = [] → step s = .next s

/-- From every state, every number of steps ends in a next state: the FAU never stops (60_exceptions.md R190: it does
not lock up; 70_reset_and_hazards.md R214: every command ends). Two clauses are the model's choice: a step with no event
to come counts as a step and answers a next state (log 4), so a run of n steps is no count of transactions; and that no
access, word or reset stops the machine is read from the spec by inference (log 5). -/
def Obligations.EveryRunAnswers : Prop :=
  ∀ (n : Nat) (s : State), ∃ t, Sys2Proof.core.run n s = .next t

/-- COUNT is at most 16 at reset (10_state.md R27, R36). -/
def Obligations.CountInvariantAtReset : Prop := State.reset.inv = true

/-- Every step keeps COUNT at most 16, from every state in which it is, whatever the host does (10_state.md R27, R37). -/
def Obligations.CountInvariantKept : Prop :=
  ∀ s t : State, s.inv = true → step s = .next t → t.inv = true
end

