-- ==== Sys2Proof/Laws/Arith.lean ====
section
/-!
SUPPORT. What the mathematical primitives of 00_scope.md R10 compute: one lemma per primitive that says it all, to be
cited instead of unfolding the loops.
-/

namespace Sys2Proof.Machine

/-! ### The non-negative residue -/

theorem residue_cast (a : Int) {m : Nat} (hm : m ≠ 0) : (residue a m : Int) = a % m := by
  unfold residue
  exact Int.toNat_of_nonneg (Int.emod_nonneg _ (by exact_mod_cast hm))

theorem residue_lt (a : Int) {m : Nat} (hm : m ≠ 0) : residue a m < m := by
  have h := Int.emod_lt_of_pos a (b := (m : Int)) (by omega)
  have := residue_cast a hm
  omega

theorem residue_modEq (a : Int) {m : Nat} (hm : m ≠ 0) : (residue a m : Int) ≡ a [ZMOD m] := by
  rw [residue_cast a hm]
  exact Int.mod_modEq a m

/-- The residue is the only natural below m congruent to a. -/
theorem residue_unique {a : Int} {m r : Nat} (hr : r < m) (h : (r : Int) ≡ a [ZMOD m]) : residue a m = r := by
  have hm : m ≠ 0 := by omega
  have h1 : (residue a m : Int) ≡ r [ZMOD m] := (residue_modEq a hm).trans h.symm
  exact Nat.ModEq.eq_of_lt_of_lt (Int.natCast_modEq_iff.mp h1) (residue_lt a hm) hr

theorem residue_natCast (a m : Nat) : residue (a : Int) m = a % m := by
  unfold residue
  rw [← Int.natCast_emod]
  rfl

/-! ### Square-and-multiply -/

theorem powLoop_modEq (m : Nat) : ∀ (rounds r b e : Nat), e < 2 ^ rounds → powLoop m rounds r b e ≡ r * b ^ e [MOD m]
  | 0, r, b, e, he => by
    have : e = 0 := by simpa using he
    simp [powLoop, this, Nat.ModEq.refl]
  | rounds + 1, r, b, e, he => by
    unfold powLoop
    split
    · simp [*, Nat.ModEq.refl]
    · have hlt : e / 2 < 2 ^ rounds := by rw [pow_succ] at he; omega
      have hsq : (b * b % m) ^ (e / 2) ≡ b ^ (2 * (e / 2)) [MOD m] := by
        rw [pow_mul, pow_two]
        exact (Nat.mod_modEq _ _).pow _
      refine (powLoop_modEq m rounds _ _ _ hlt).trans ?_
      by_cases hodd : e % 2 = 1
      · have he' : e = 2 * (e / 2) + 1 := by omega
        rw [if_pos hodd]
        calc r * b % m * (b * b % m) ^ (e / 2)
            ≡ r * b * b ^ (2 * (e / 2)) [MOD m] := (Nat.mod_modEq _ _).mul hsq
          _ = r * b ^ e := by conv_rhs => rw [he', pow_succ]
                              ring
      · have he' : e = 2 * (e / 2) := by omega
        rw [if_neg hodd]
        conv_rhs => rw [he']
        exact hsq.mul_left r

theorem powLoop_lt {m : Nat} (hm : m ≠ 0) : ∀ (rounds r b e : Nat), r < m → powLoop m rounds r b e < m
  | 0, _, _, _, hr => hr
  | rounds + 1, r, b, e, hr => by
    unfold powLoop
    split
    · exact hr
    · apply powLoop_lt hm
      split
      · exact Nat.mod_lt _ (Nat.pos_of_ne_zero hm)
      · exact hr

/-- R132's loop returns the value of R131, for every W-bit exponent. -/
theorem modexp_eq (a : Nat) {e m : Nat} (he : e < 2 ^ 256) (hm : m ≠ 0) : modexp a e m = (a % m) ^ e % m := by
  unfold modexp
  have hlt : 1 % m < m := Nat.mod_lt _ (Nat.pos_of_ne_zero hm)
  have h : powLoop m Config.W (1 % m) (a % m) e ≡ (a % m) ^ e [MOD m] := by
    refine (powLoop_modEq m Config.W _ _ _ he).trans ?_
    simpa using (Nat.mod_modEq 1 m).mul_right ((a % m) ^ e)
  rw [← Nat.mod_eq_of_lt (powLoop_lt hm Config.W _ (a % m) e hlt)]
  exact h

/-! ### Extended Euclid -/

/-- The loop ends with the gcd, and with a coefficient of `a` for it (R142's invariant). -/
theorem euclidLoop_spec {a m : Int} : ∀ (rounds r0 r1 : Nat) (t0 t1 : Int), r1 ≤ rounds →
    t0 * a ≡ r0 [ZMOD m] → t1 * a ≡ r1 [ZMOD m] →
    (euclidLoop rounds r0 r1 t0 t1).1 = Nat.gcd r0 r1 ∧
      (euclidLoop rounds r0 r1 t0 t1).2 * a ≡ (euclidLoop rounds r0 r1 t0 t1).1 [ZMOD m]
  | 0, r0, r1, t0, t1, hr, h0, _ => by
    have : r1 = 0 := by omega
    simp [euclidLoop, this, h0]
  | rounds + 1, r0, r1, t0, t1, hr, h0, h1 => by
    unfold euclidLoop
    split
    · simp [*]
    · rename_i hne
      have hmod : r0 - r0 / r1 * r1 = r0 % r1 := by
        have := Nat.div_add_mod' r0 r1
        omega
      rw [hmod]
      have hlt : r0 % r1 < r1 := Nat.mod_lt _ (Nat.pos_of_ne_zero hne)
      have hstep : (t0 - ((r0 / r1 : Nat) : Int) * t1) * a ≡ ((r0 % r1 : Nat) : Int) [ZMOD m] := by
        have hcast : ((r0 % r1 : Nat) : Int) = r0 - ((r0 / r1 : Nat) : Int) * r1 := by
          have : ((r0 / r1 : Nat) : Int) * r1 + ((r0 % r1 : Nat) : Int) = r0 := by
            exact_mod_cast Nat.div_add_mod' r0 r1
          omega
        rw [hcast, sub_mul, mul_assoc]
        exact h0.sub (h1.mul_left _)
      have ih := euclidLoop_spec rounds r1 (r0 % r1) t1 (t0 - ((r0 / r1 : Nat) : Int) * t1) (by omega) h1 hstep
      refine ⟨ih.1.trans ?_, ih.2⟩
      rw [Nat.gcd_comm r1, Nat.gcd_comm r0, ← Nat.gcd_rec]

/-- What `modinv` answers, whole: the inverse in [0, m) when gcd(a, m) = 1, and DomainError otherwise (R141). -/
theorem modinv_spec (a : Nat) {m : Nat} (hm : m ≠ 0) :
    (Nat.gcd a m = 1 ∧ ∃ y, modinv a m = .ok y ∧ y < m ∧ a * y ≡ 1 [MOD m]) ∨
      (Nat.gcd a m ≠ 1 ∧ modinv a m = .error .domain) := by
  have h := euclidLoop_spec (a := (a : Int)) (m := (m : Int)) m m (a % m) 0 1
    (Nat.le_of_lt (Nat.mod_lt _ (Nat.pos_of_ne_zero hm))) (by simp [Int.ModEq])
    (by simpa using (Int.mod_modEq (a : Int) m).symm)
  have hg : Nat.gcd m (a % m) = Nat.gcd a m := by rw [Nat.gcd_comm, ← Nat.gcd_rec, Nat.gcd_comm]
  rw [hg] at h
  by_cases hc : Nat.gcd a m = 1
  · refine .inl ⟨hc, residue (euclidLoop m m (a % m) 0 1).2 m, ?_, residue_lt _ hm, ?_⟩
    · simp [modinv, h.1, hc]
    · apply Int.natCast_modEq_iff.mp
      have h2 := h.2
      rw [h.1, hc] at h2
      push_cast
      calc (a : Int) * residue (euclidLoop m m (a % m) 0 1).2 m
          ≡ a * (euclidLoop m m (a % m) 0 1).2 [ZMOD m] := (residue_modEq _ hm).mul_left _
        _ = (euclidLoop m m (a % m) 0 1).2 * a := mul_comm _ _
        _ ≡ 1 [ZMOD m] := by simpa using h2
  · exact .inr ⟨hc, by simp [modinv, h.1, hc]⟩

/-- A value `modinv` returns is below the modulus. -/
theorem modinv_lt {a m y : Nat} (hm : m ≠ 0) (h : modinv a m = .ok y) : y < m := by
  rcases modinv_spec a hm with ⟨-, z, hz, hlt, -⟩ | ⟨-, hz⟩ <;> rw [hz] at h <;> cases h
  exact hlt

/-- An inverse mod m is determined below m (00_scope.md R10). -/
theorem inverse_unique {a m y z : Nat} (hy : y < m) (hz : z < m) (h1 : a * y ≡ 1 [MOD m]) (h2 : a * z ≡ 1 [MOD m]) :
    y = z := by
  have h : y ≡ z [MOD m] := by
    calc y = 1 * y := (one_mul y).symm
      _ ≡ a * z * y [MOD m] := h2.symm.mul_right y
      _ = a * y * z := by ring
      _ ≡ 1 * z [MOD m] := h1.mul_right z
      _ = z := one_mul z
  exact h.eq_of_lt_of_lt hy hz

end Sys2Proof.Machine
end

