-- ==== Sys2Proof/Laws/Decode.lean ====
section
/-!
SUPPORT. Lemmas about the command word: an encoded word's fields and its row's mask test, the rows told apart by their
opcodes, and a word rebuilt from its fields (30_encoding.md R81 to R87).
-/

namespace Sys2Proof

/-! ### Fields as numbers (00_scope.md R9) -/

theorem append_toNat {m n : Nat} (x : BitVec m) (y : BitVec n) : (x ++ y).toNat = x.toNat * 2 ^ n + y.toNat := by
  rw [BitVec.toNat_append, ← Nat.shiftLeft_add_eq_or_of_lt y.isLt, Nat.shiftLeft_eq]

theorem regField_val (c : BusWord) (lo : Nat) : (regField c lo).val = c.toNat / 2 ^ lo % 16 := by
  change (c.extractLsb' lo 4).toNat = _
  rw [BitVec.extractLsb'_toNat, Nat.shiftRight_eq_div_pow]

theorem slotField_eq (c : BusWord) : slotField c = c.toNat / 2 ^ 12 % 16 := by
  rw [slotField, BitVec.extractLsb'_toNat, Nat.shiftRight_eq_div_pow]

theorem thresholdField_eq (c : BusWord) : thresholdField c = c.toNat / 2 ^ 24 % 32 := by
  rw [thresholdField, BitVec.extractLsb'_toNat, Nat.shiftRight_eq_div_pow]

theorem opcodeField_toNat (c : BusWord) : (opcodeField c).toNat = c.toNat % 256 := by
  rw [opcodeField, BitVec.extractLsb'_toNat, Nat.shiftRight_zero]

theorem code_and_ones (op : Op) : op.code &&& 255#8 = op.code := by cases op <;> rfl

/-! ### A format R word (R82) -/

section FormatR
variable (op : Op) (rd ra rb rm : Reg)

/-- The word as R87 adds it up. -/
theorem formatR_toNat : (formatR op rd ra rb rm).toNat =
    op.code.toNat + rd.val * 2 ^ 8 + ra.val * 2 ^ 12 + rb.val * 2 ^ 16 + rm.val * 2 ^ 20 := by
  have h1 := rd.isLt
  have h2 := ra.isLt
  have h3 := rb.isLt
  have h4 := rm.isLt
  simp only [formatR, append_toNat, BitVec.toNat_ofNat]
  omega

theorem formatR_opcode : opcodeField (formatR op rd ra rb rm) = op.code := by
  have h := op.code.isLt
  apply BitVec.eq_of_toNat_eq
  rw [opcodeField_toNat, formatR_toNat]
  omega

theorem formatR_rd : regField (formatR op rd ra rb rm) 8 = rd := by
  have h0 := op.code.isLt
  have h1 := rd.isLt
  apply Fin.ext
  rw [regField_val, formatR_toNat]
  omega

theorem formatR_ra : regField (formatR op rd ra rb rm) 12 = ra := by
  have h0 := op.code.isLt
  have h1 := rd.isLt
  have h2 := ra.isLt
  apply Fin.ext
  rw [regField_val, formatR_toNat]
  omega

theorem formatR_rb : regField (formatR op rd ra rb rm) 16 = rb := by
  have h0 := op.code.isLt
  have h1 := rd.isLt
  have h2 := ra.isLt
  have h3 := rb.isLt
  apply Fin.ext
  rw [regField_val, formatR_toNat]
  omega

theorem formatR_rm : regField (formatR op rd ra rb rm) 20 = rm := by
  have h0 := op.code.isLt
  have h1 := rd.isLt
  have h2 := ra.isLt
  have h3 := rb.isLt
  have h4 := rm.isLt
  apply Fin.ext
  rw [regField_val, formatR_toNat]
  omega

/-- The mask of a row with two source registers leaves only the opcode. -/
theorem formatR_mask : formatR op rd ra rb rm &&& 0xFF0000FF#32 = 0#24 ++ op.code := by
  change (0#8 ++ BitVec.ofNat 4 rm ++ BitVec.ofNat 4 rb ++ BitVec.ofNat 4 ra ++ BitVec.ofNat 4 rd ++ op.code) &&&
    (0xFF#8 ++ 0#4 ++ 0#4 ++ 0#4 ++ 0#4 ++ 0xFF#8) = 0#8 ++ 0#4 ++ 0#4 ++ 0#4 ++ 0#4 ++ op.code
  simp only [BitVec.and_append, BitVec.and_zero, BitVec.zero_and, code_and_ones]

/-- The mask of a row with one source register leaves only the opcode, rb being 0. -/
theorem formatR_mask_rb0 : formatR op rd ra 0 rm &&& 0xFF0F00FF#32 = 0#24 ++ op.code := by
  change (0#8 ++ BitVec.ofNat 4 rm ++ 0#4 ++ BitVec.ofNat 4 ra ++ BitVec.ofNat 4 rd ++ op.code) &&&
    (0xFF#8 ++ 0#4 ++ 0xF#4 ++ 0#4 ++ 0#4 ++ 0xFF#8) = 0#8 ++ 0#4 ++ 0#4 ++ 0#4 ++ 0#4 ++ op.code
  simp only [BitVec.and_append, BitVec.and_zero, BitVec.zero_and, code_and_ones]

end FormatR

/-! ### A format L word (R84) -/

section FormatL
variable (op : Op) (rd : Reg) (i t : Nat) (rm : Reg)

/-- The word as R87 adds it up. -/
theorem formatL_toNat (hi : i < 16) (ht : t < 32) : (formatL op rd i t rm).toNat =
    op.code.toNat + rd.val * 2 ^ 8 + i * 2 ^ 12 + rm.val * 2 ^ 20 + t * 2 ^ 24 := by
  have h1 := rd.isLt
  have h4 := rm.isLt
  simp only [formatL, append_toNat, BitVec.toNat_ofNat]
  omega

theorem formatL_opcode (hi : i < 16) (ht : t < 32) : opcodeField (formatL op rd i t rm) = op.code := by
  have h := op.code.isLt
  apply BitVec.eq_of_toNat_eq
  rw [opcodeField_toNat, formatL_toNat op rd i t rm hi ht]
  omega

theorem formatL_rd (hi : i < 16) (ht : t < 32) : regField (formatL op rd i t rm) 8 = rd := by
  have h0 := op.code.isLt
  have h1 := rd.isLt
  apply Fin.ext
  rw [regField_val, formatL_toNat op rd i t rm hi ht]
  omega

theorem formatL_slot (hi : i < 16) (ht : t < 32) : slotField (formatL op rd i t rm) = i := by
  have h0 := op.code.isLt
  have h1 := rd.isLt
  rw [slotField_eq, formatL_toNat op rd i t rm hi ht]
  omega

theorem formatL_rm (hi : i < 16) (ht : t < 32) : regField (formatL op rd i t rm) 20 = rm := by
  have h0 := op.code.isLt
  have h1 := rd.isLt
  have h4 := rm.isLt
  apply Fin.ext
  rw [regField_val, formatL_toNat op rd i t rm hi ht]
  omega

theorem formatL_threshold (hi : i < 16) (ht : t < 32) : thresholdField (formatL op rd i t rm) = t := by
  have h0 := op.code.isLt
  have h1 := rd.isLt
  have h4 := rm.isLt
  rw [thresholdField_eq, formatL_toNat op rd i t rm hi ht]
  omega

/-- LAGCOEF's mask leaves only the opcode. -/
theorem formatL_mask : formatL op rd i t rm &&& 0xE00F00FF#32 = 0#24 ++ op.code := by
  change (0#3 ++ BitVec.ofNat 5 t ++ BitVec.ofNat 4 rm ++ 0#4 ++ BitVec.ofNat 4 i ++ BitVec.ofNat 4 rd ++ op.code) &&&
    (7#3 ++ 0#5 ++ 0#4 ++ 0xF#4 ++ 0#4 ++ 0#4 ++ 0xFF#8) = 0#3 ++ 0#5 ++ 0#4 ++ 0#4 ++ 0#4 ++ 0#4 ++ op.code
  simp only [BitVec.and_append, BitVec.and_zero, BitVec.zero_and, code_and_ones]

/-- LAGRECON's mask leaves only the opcode, i being 0. -/
theorem formatL_mask_i0 : formatL op rd 0 t rm &&& 0xE00FF0FF#32 = 0#24 ++ op.code := by
  change (0#3 ++ BitVec.ofNat 5 t ++ BitVec.ofNat 4 rm ++ 0#4 ++ 0#4 ++ BitVec.ofNat 4 rd ++ op.code) &&&
    (7#3 ++ 0#5 ++ 0#4 ++ 0xF#4 ++ 0xF#4 ++ 0#4 ++ 0xFF#8) = 0#3 ++ 0#5 ++ 0#4 ++ 0#4 ++ 0#4 ++ 0#4 ++ op.code
  simp only [BitVec.and_append, BitVec.and_zero, BitVec.zero_and, code_and_ones]

end FormatL

/-! ### Rows are told apart by their opcodes (R86) -/

/-- Every row tests the whole opcode, so a word that matches it has the row's opcode. -/
theorem opcode_of_matches {r : Row} (hr : r ∈ opcodeMap) {c : BusWord} (h : r.matchesWord c = true) :
    opcodeField c = r.op.code := by
  have hall : ∀ q ∈ opcodeMap, opcodeField q.mask = 0xFF#8 ∧ opcodeField q.pattern = q.op.code := by decide
  have hm := hall r hr
  have heq : c &&& r.mask = r.pattern := by simpa [Row.matchesWord] using h
  have hx : opcodeField (c &&& r.mask) = opcodeField c := by
    unfold opcodeField at hm ⊢
    rw [BitVec.extractLsb'_and, hm.1]
    exact BitVec.and_allOnes
  rw [← hx, heq, hm.2]

/-- No two rows share an opcode. -/
theorem row_eq_of_code {r q : Row} (hr : r ∈ opcodeMap) (hq : q ∈ opcodeMap) (h : r.op.code = q.op.code) : r = q := by
  have hall : ∀ r ∈ opcodeMap, ∀ q ∈ opcodeMap, r.op.code = q.op.code → r = q := by decide
  exact hall r hr q hq h

/-- The rows are disjoint (R86). -/
theorem row_unique {r q : Row} (hr : r ∈ opcodeMap) (hq : q ∈ opcodeMap) {c : BusWord}
    (h1 : r.matchesWord c = true) (h2 : q.matchesWord c = true) : r = q :=
  row_eq_of_code hr hq ((opcode_of_matches hr h1).symm.trans (opcode_of_matches hq h2))

/-- What the decoder does with a word that matches a row. -/
theorem decode_of_matches {r : Row} (hr : r ∈ opcodeMap) {c : BusWord} (h : r.matchesWord c = true) :
    decode c = .ok (r.op.withFields c) := by
  unfold decode
  cases hf : opcodeMap.find? (fun r => r.matchesWord c) with
  | none => exact absurd h (by simpa using List.find?_eq_none.mp hf r hr)
  | some q =>
    have hq : q.matchesWord c = true := by simpa using List.find?_some hf
    rw [row_unique hr (List.mem_of_find?_eq_some hf) h hq]

/-- A decoded command came from a row that matches. -/
theorem decode_ok {c : BusWord} {i : Instr} (h : decode c = .ok i) :
    ∃ r ∈ opcodeMap, r.matchesWord c = true ∧ i = r.op.withFields c := by
  unfold decode at h
  split at h
  · rename_i r hf
    exact ⟨r, List.mem_of_find?_eq_some hf, by simpa using List.find?_some hf, (Except.ok.inj h).symm⟩
  · cases h

/-- A word that matches no row is illegal (R89). -/
theorem decode_of_no_match {c : BusWord} (h : ∀ r ∈ opcodeMap, r.matchesWord c = false) :
    decode c = .error (illegalReason c) := by
  unfold decode
  rw [List.find?_eq_none.mpr (fun r hr => by simp [h r hr])]

/-! ### A word rebuilt from its fields -/

/-- A word whose must-be-zero bits are 0 is the format R word of its fields. -/
theorem eq_formatR {op : Op} {c : BusWord} (hop : opcodeField c = op.code) (hz : c.toNat / 2 ^ 24 = 0) :
    formatR op (regField c 8) (regField c 12) (regField c 16) (regField c 20) = c := by
  have h := opcodeField_toNat c
  apply BitVec.eq_of_toNat_eq
  rw [formatR_toNat, regField_val, regField_val, regField_val, regField_val, ← hop]
  omega

/-- A word whose must-be-zero bits are 0 is the format L word of its fields. -/
theorem eq_formatL {op : Op} {c : BusWord} (hop : opcodeField c = op.code) (h1 : c.toNat / 2 ^ 16 % 16 = 0)
    (h2 : c.toNat / 2 ^ 29 = 0) :
    formatL op (regField c 8) (slotField c) (thresholdField c) (regField c 20) = c := by
  have h := opcodeField_toNat c
  have hi : slotField c < 16 := by rw [slotField_eq]; omega
  have ht : thresholdField c < 32 := by rw [thresholdField_eq]; omega
  apply BitVec.eq_of_toNat_eq
  rw [formatL_toNat _ _ _ _ _ hi ht, regField_val, regField_val, slotField_eq, thresholdField_eq, ← hop]
  omega

end Sys2Proof
end

