-- ==== Sys2Proof/Laws/State.lean ====
section
/-!
SUPPORT. One lemma per field per named update of State, each true by rfl, so that no later proof unfolds a record update.
-/

namespace Sys2Proof.Machine

section SetErr
variable (s : State) (c : BitVec 2)
@[simp] theorem State.setErr_x : (s.setErr c).x = s.x := rfl
@[simp] theorem State.setErr_tX : (s.setErr c).tX = s.tX := rfl
@[simp] theorem State.setErr_tF : (s.setErr c).tF = s.tF := rfl
@[simp] theorem State.setErr_count : (s.setErr c).count = s.count := rfl
@[simp] theorem State.setErr_err : (s.setErr c).err = c := rfl
@[simp] theorem State.setErr_host : (s.setErr c).host = s.host := rfl
@[simp] theorem State.setErr_response : (s.setErr c).response = s.response := rfl
end SetErr

section SetReg
variable (s : State) (n : Reg) (v : Word)
@[simp] theorem State.setReg_x : (s.setReg n v).x = s.x.set n v := rfl
@[simp] theorem State.setReg_tX : (s.setReg n v).tX = s.tX := rfl
@[simp] theorem State.setReg_tF : (s.setReg n v).tF = s.tF := rfl
@[simp] theorem State.setReg_count : (s.setReg n v).count = s.count := rfl
@[simp] theorem State.setReg_err : (s.setReg n v).err = s.err := rfl
@[simp] theorem State.setReg_host : (s.setReg n v).host = s.host := rfl
@[simp] theorem State.setReg_response : (s.setReg n v).response = s.response := rfl
end SetReg

section Raise
variable (s : State) (e : Err)
@[simp] theorem State.raise_x : (s.raise e).x = s.x := rfl
@[simp] theorem State.raise_tX : (s.raise e).tX = s.tX := rfl
@[simp] theorem State.raise_tF : (s.raise e).tF = s.tF := rfl
@[simp] theorem State.raise_count : (s.raise e).count = s.count := rfl
@[simp] theorem State.raise_err : (s.raise e).err = e.code := rfl
@[simp] theorem State.raise_host : (s.raise e).host = s.host := rfl
@[simp] theorem State.raise_response : (s.raise e).response = s.response := rfl
end Raise

section Complete
variable (s : State) (rd : Reg) (r : Nat)
@[simp] theorem State.complete_x : (s.complete rd r).x = s.x.set rd (BitVec.ofNat 256 r) := rfl
@[simp] theorem State.complete_tX : (s.complete rd r).tX = s.tX := rfl
@[simp] theorem State.complete_tF : (s.complete rd r).tF = s.tF := rfl
@[simp] theorem State.complete_count : (s.complete rd r).count = s.count := rfl
@[simp] theorem State.complete_err : (s.complete rd r).err = 0#2 := rfl
@[simp] theorem State.complete_host : (s.complete rd r).host = s.host := rfl
@[simp] theorem State.complete_response : (s.complete rd r).response = s.response := rfl
end Complete

section Zeroise
variable (s : State)
@[simp] theorem State.zeroise_x : s.zeroise.x = Vector.replicate 16 0#256 := rfl
@[simp] theorem State.zeroise_tX : s.zeroise.tX = Vector.replicate 16 0#256 := rfl
@[simp] theorem State.zeroise_tF : s.zeroise.tF = Vector.replicate 16 0#256 := rfl
@[simp] theorem State.zeroise_count : s.zeroise.count = 0#5 := rfl
@[simp] theorem State.zeroise_err : s.zeroise.err = 0#2 := rfl
@[simp] theorem State.zeroise_host : s.zeroise.host = s.host := rfl
@[simp] theorem State.zeroise_response : s.zeroise.response = s.response := rfl
end Zeroise

section Respond
variable (s : State) (r : Response)
@[simp] theorem State.respond_x : (s.respond r).x = s.x := rfl
@[simp] theorem State.respond_tX : (s.respond r).tX = s.tX := rfl
@[simp] theorem State.respond_tF : (s.respond r).tF = s.tF := rfl
@[simp] theorem State.respond_count : (s.respond r).count = s.count := rfl
@[simp] theorem State.respond_err : (s.respond r).err = s.err := rfl
@[simp] theorem State.respond_host : (s.respond r).host = s.host := rfl
@[simp] theorem State.respond_response : (s.respond r).response = some r := rfl
end Respond

section PlatformReset
variable (s : State)
@[simp] theorem State.platformReset_x : s.platformReset.x = Vector.replicate 16 0#256 := rfl
@[simp] theorem State.platformReset_tX : s.platformReset.tX = Vector.replicate 16 0#256 := rfl
@[simp] theorem State.platformReset_tF : s.platformReset.tF = Vector.replicate 16 0#256 := rfl
@[simp] theorem State.platformReset_count : s.platformReset.count = 0#5 := rfl
@[simp] theorem State.platformReset_err : s.platformReset.err = 0#2 := rfl
@[simp] theorem State.platformReset_host : s.platformReset.host = s.host := rfl
@[simp] theorem State.platformReset_response : s.platformReset.response = none := rfl
end PlatformReset

end Sys2Proof.Machine
end

