-- ==== Sys2Proof/Laws/Ops.lean ====
section
/-!
SUPPORT. What the shared ends of the commands can do (30_encoding.md R88 steps 3 to 6), said once: an error or a
completion, and which.
-/

namespace Sys2Proof.Machine

@[simp] theorem State.finish_ok (s : State) (rd : Reg) (r : Nat) : s.finish rd (.ok r) = s.complete rd r := rfl

@[simp] theorem State.finish_error (s : State) (rd : Reg) (e : Err) : s.finish rd (.error e) = s.raise e := rfl

@[simp] theorem State.finish_tX (s : State) (rd : Reg) (r : Except Err Nat) : (s.finish rd r).tX = s.tX := by
  cases r <;> rfl

@[simp] theorem State.finish_tF (s : State) (rd : Reg) (r : Except Err Nat) : (s.finish rd r).tF = s.tF := by
  cases r <;> rfl

@[simp] theorem State.finish_count (s : State) (rd : Reg) (r : Except Err Nat) : (s.finish rd r).count = s.count := by
  cases r <;> rfl

@[simp] theorem State.finish_host (s : State) (rd : Reg) (r : Except Err Nat) : (s.finish rd r).host = s.host := by
  cases r <;> rfl

@[simp] theorem State.finish_response (s : State) (rd : Reg) (r : Except Err Nat) :
    (s.finish rd r).response = s.response := by
  cases r <;> rfl

/-- An error's code is never 0, so STATUS tells a failure from a completion (10_state.md R29). -/
theorem Err.code_ne_zero (e : Err) : e.code ≠ 0#2 := by cases e <;> decide

theorem Err.code_injective {e f : Err} (h : e.code = f.code) : e = f := by
  cases e <;> cases f <;> first | rfl | exact absurd h (by decide)

@[simp] theorem checkModulus_zero (r : Except Err Nat) : checkModulus 0 r = .error .domain := rfl

theorem checkModulus_pos {m : Nat} (hm : m ≠ 0) (r : Except Err Nat) : checkModulus m r = r := if_neg hm

/-- All a zero-modulus test can answer. -/
theorem checkModulus_cases (m : Nat) (r : Except Err Nat) :
    (m = 0 ∧ checkModulus m r = .error .domain) ∨ (m ≠ 0 ∧ checkModulus m r = r) := by
  by_cases hm : m = 0
  · exact .inl ⟨hm, if_pos hm⟩
  · exact .inr ⟨hm, if_neg hm⟩

/-- A result past the zero-modulus test. -/
theorem checkModulus_ok {m v : Nat} {r : Except Err Nat} (h : checkModulus m r = .ok v) : m ≠ 0 ∧ r = .ok v := by
  rcases checkModulus_cases m r with ⟨-, h'⟩ | ⟨hm, h'⟩
  · rw [h'] at h
    cases h
  · exact ⟨hm, h' ▸ h⟩

theorem checkLagrange_insufficient {count t m : Nat} (h : count < t) (b : Bool) (r : Except Err Nat) :
    checkLagrange count t m b r = .error .insufficientShares := if_pos h

theorem checkLagrange_operands {count t m : Nat} {b : Bool} (h : t ≤ count) (hb : t = 0 ∨ m = 0 ∨ b = true)
    (r : Except Err Nat) : checkLagrange count t m b r = .error .domain := by
  unfold checkLagrange
  rw [if_neg (by omega), if_pos hb]

theorem checkLagrange_pass {count t m : Nat} {b : Bool} (h : t ≤ count) (ht : t ≠ 0) (hm : m ≠ 0) (hb : b = false)
    (r : Except Err Nat) : checkLagrange count t m b r = r := by
  unfold checkLagrange
  rw [if_neg (by omega), if_neg (by simp [ht, hm, hb])]

/-- All the checks of a Lagrange command can answer, in their order (60_exceptions.md R185). -/
theorem checkLagrange_cases (count t m : Nat) (b : Bool) (r : Except Err Nat) :
    (count < t ∧ checkLagrange count t m b r = .error .insufficientShares) ∨
      (t ≤ count ∧ (t = 0 ∨ m = 0 ∨ b = true) ∧ checkLagrange count t m b r = .error .domain) ∨
      (t ≤ count ∧ t ≠ 0 ∧ m ≠ 0 ∧ b = false ∧ checkLagrange count t m b r = r) := by
  by_cases h : count < t
  · exact .inl ⟨h, checkLagrange_insufficient h b r⟩
  · have h' : t ≤ count := by omega
    by_cases hb : t = 0 ∨ m = 0 ∨ b = true
    · exact .inr (.inl ⟨h', hb, checkLagrange_operands h' hb r⟩)
    · have ht : t ≠ 0 := fun e => hb (.inl e)
      have hm : m ≠ 0 := fun e => hb (.inr (.inl e))
      have hf : b = false := by simpa using fun e => hb (.inr (.inr e))
      exact .inr (.inr ⟨h', ht, hm, hf, checkLagrange_pass h' ht hm hf r⟩)

/-- A result past the checks of a Lagrange command. -/
theorem checkLagrange_ok {count t m v : Nat} {b : Bool} {r : Except Err Nat} (h : checkLagrange count t m b r = .ok v) :
    t ≤ count ∧ t ≠ 0 ∧ m ≠ 0 ∧ b = false ∧ r = .ok v := by
  rcases checkLagrange_cases count t m b r with ⟨-, h'⟩ | ⟨-, -, h'⟩ | ⟨h1, h2, h3, h4, h'⟩
  · rw [h'] at h
    cases h
  · rw [h'] at h
    cases h
  · exact ⟨h1, h2, h3, h4, h' ▸ h⟩

/-- A register read after a register write (10_state.md R20: no register is hard-wired). -/
theorem State.regVal_setReg (s : State) (n k : Reg) (v : Word) :
    (s.setReg n v).regVal k = if k = n then v.toNat else s.regVal k := by
  unfold State.regVal
  by_cases h : k = n
  · subst h
    simp
  · have : n.val ≠ k.val := fun e => h (Fin.ext e.symm)
    simp [h, Vector.getElem_set_ne _ _ this]

/-- A slot below NSLOT is read as it stands (20_memory.md R66). -/
theorem State.slotX_eq (s : State) (n : Slot) : s.slotX n = s.tX[n].toNat := by
  simp [State.slotX]

theorem State.slotF_eq (s : State) (n : Slot) : s.slotF n = s.tF[n].toNat := by
  simp [State.slotF]

theorem State.regVal_lt (s : State) (n : Reg) : s.regVal n < 2 ^ 256 := s.x[n].isLt

end Sys2Proof.Machine
end

