-- ==== Sys2Proof/Laws/Lagrange.lean ====
section
/-!
SUPPORT. What the Lagrange functions compute (43_lagrange.md R155, R156), in terms of exact products and sums.
-/

namespace Sys2Proof.Machine

open Finset

theorem lagProduct_succ (factor : Nat → Int) (i t m : Nat) :
    lagProduct factor i (t + 1) m =
      if t = i then lagProduct factor i t m else lagProduct factor i t m * residue (factor t) m % m := by
  simp [lagProduct, List.range_succ]

theorem lagProduct_lt (factor : Nat → Int) (i : Nat) {m : Nat} (hm : m ≠ 0) : ∀ t, lagProduct factor i t m < m
  | 0 => Nat.mod_lt _ (Nat.pos_of_ne_zero hm)
  | t + 1 => by
    rw [lagProduct_succ]
    split
    · exact lagProduct_lt factor i hm t
    · exact Nat.mod_lt _ (Nat.pos_of_ne_zero hm)

/-- The running product is the exact product of the factors j ≠ i, mod m. -/
theorem lagProduct_modEq (factor : Nat → Int) (i : Nat) {m : Nat} (hm : m ≠ 0) :
    ∀ t, (lagProduct factor i t m : Int) ≡ ∏ j ∈ (range t).erase i, factor j [ZMOD m]
  | 0 => by simpa [lagProduct] using Int.mod_modEq 1 (m : Int)
  | t + 1 => by
    rw [lagProduct_succ]
    have ih := lagProduct_modEq factor i hm t
    by_cases h : t = i
    · subst h
      rw [if_pos rfl, range_add_one, erase_insert notMem_range_self]
      simpa using ih
    · rw [if_neg h, range_add_one, erase_insert_of_ne h, prod_insert (by simp)]
      push_cast
      calc (lagProduct factor i t m * residue (factor t) m : Int) % m
          ≡ lagProduct factor i t m * residue (factor t) m [ZMOD m] := Int.mod_modEq _ _
        _ ≡ (∏ j ∈ (range t).erase i, factor j) * factor t [ZMOD m] := ih.mul (residue_modEq _ hm)
        _ = factor t * ∏ j ∈ (range t).erase i, factor j := mul_comm _ _

theorem gcd_eq_one_of_modEq {a b : Int} {m : Nat} (h : a ≡ b [ZMOD m]) : Int.gcd a m = 1 ↔ Int.gcd b m = 1 := by
  rw [← Int.gcd_emod a, h, Int.gcd_emod]

/-- A product is coprime to m exactly when every factor is (R155). -/
theorem gcd_prod_eq_one_iff (factor : Nat → Int) (i t m : Nat) :
    Int.gcd (∏ j ∈ (range t).erase i, factor j) m = 1 ↔ ∀ j < t, j ≠ i → Int.gcd (factor j) m = 1 := by
  rw [← Int.isCoprime_iff_gcd_eq_one, IsCoprime.prod_left_iff]
  constructor
  · intro h j hj hne
    exact Int.isCoprime_iff_gcd_eq_one.mp (h j (by simp [hj, hne]))
  · intro h j hj
    simp only [mem_erase, mem_range] at hj
    exact Int.isCoprime_iff_gcd_eq_one.mpr (h j hj.2 hj.1)

/-- What `lag` answers, whole (R155): the value below m that the denominators' product takes to the numerators'
product, when every denominator factor is invertible mod m; DomainError otherwise. -/
theorem lag_spec (i t : Nat) (xs : Nat → Nat) {m : Nat} (hm : m ≠ 0) :
    ((∀ j < t, j ≠ i → Int.gcd ((xs i : Int) - xs j) m = 1) ∧
      ∃ v, lag i t xs m = .ok v ∧ v < m ∧
        (v : Int) * ∏ j ∈ (range t).erase i, ((xs i : Int) - xs j) ≡ ∏ j ∈ (range t).erase i, (-(xs j : Int)) [ZMOD m]) ∨
    ((∃ j < t, j ≠ i ∧ Int.gcd ((xs i : Int) - xs j) m ≠ 1) ∧ lag i t xs m = .error .domain) := by
  have hden := lagProduct_modEq (fun j => (xs i : Int) - xs j) i hm t
  have hnum := lagProduct_modEq (fun j => 0 - (xs j : Int)) i hm t
  have hgcd := (gcd_eq_one_of_modEq hden).trans (gcd_prod_eq_one_iff _ i t m)
  rw [Int.gcd_natCast_natCast] at hgcd
  rcases modinv_spec (lagProduct (fun j => (xs i : Int) - xs j) i t m) hm with ⟨h1, y, hy, -, hmul⟩ | ⟨h1, hy⟩
  · refine .inl ⟨hgcd.mp h1, lagProduct (fun j => 0 - (xs j : Int)) i t m * y % m, ?_, Nat.mod_lt _ (Nat.pos_of_ne_zero hm), ?_⟩
    · simp only [lag, hy]
    · have hmul' : (lagProduct (fun j => (xs i : Int) - xs j) i t m : Int) * y ≡ 1 [ZMOD m] := by
        exact_mod_cast Int.natCast_modEq_iff.mpr hmul
      push_cast
      calc (lagProduct (fun j => 0 - (xs j : Int)) i t m * y : Int) % m * ∏ j ∈ (range t).erase i, ((xs i : Int) - xs j)
          ≡ (lagProduct (fun j => 0 - (xs j : Int)) i t m * y) * lagProduct (fun j => (xs i : Int) - xs j) i t m [ZMOD m] :=
            (Int.mod_modEq _ _).mul hden.symm
        _ = lagProduct (fun j => 0 - (xs j : Int)) i t m * (lagProduct (fun j => (xs i : Int) - xs j) i t m * y) := by ring
        _ ≡ lagProduct (fun j => 0 - (xs j : Int)) i t m * 1 [ZMOD m] := hmul'.mul_left _
        _ = lagProduct (fun j => 0 - (xs j : Int)) i t m := mul_one _
        _ ≡ ∏ j ∈ (range t).erase i, (-(xs j : Int)) [ZMOD m] := by simpa using hnum
  · refine .inr ⟨?_, by simp only [lag, hy]⟩
    by_contra hall
    push Not at hall
    exact h1 (hgcd.mpr hall)

/-- A coefficient is below the modulus. -/
theorem lag_lt {i t m v : Nat} {xs : Nat → Nat} (hm : m ≠ 0) (h : lag i t xs m = .ok v) : v < m := by
  rcases lag_spec i t xs hm with ⟨-, y, hy, hlt, -⟩ | ⟨-, hy⟩ <;> rw [hy] at h <;> cases h
  exact hlt

/-- The value of a coefficient is determined: below m there is one number the denominators' product takes to the
numerators' product, when that product is invertible. -/
theorem lag_value_unique {m v w : Nat} {d n : Int} (hd : Int.gcd d m = 1) (hv : v < m) (hw : w < m)
    (h1 : (v : Int) * d ≡ n [ZMOD m]) (h2 : (w : Int) * d ≡ n [ZMOD m]) : v = w := by
  have hq := Int.ModEq.cancel_right_div_gcd (by exact_mod_cast Nat.pos_of_ne_zero (by omega)) (h1.trans h2.symm)
  have h : (v : Int) ≡ w [ZMOD m] := by simpa [Int.gcd_comm (m : Int) d, hd] using hq
  exact (Int.natCast_modEq_iff.mp h).eq_of_lt_of_lt hv hw

theorem recon_zero (xs fs : Nat → Nat) (m : Nat) : recon 0 xs fs m = .ok 0 := rfl

/-- The sum over the first k of the t coefficients. -/
def reconUpTo (k t : Nat) (xs fs : Nat → Nat) (m : Nat) : Except Err Nat :=
  (List.range k).foldl (reconStep t xs fs m) (.ok 0)

theorem recon_eq_reconUpTo (t : Nat) (xs fs : Nat → Nat) (m : Nat) : recon t xs fs m = reconUpTo t t xs fs m := rfl

theorem reconUpTo_succ (k t : Nat) (xs fs : Nat → Nat) (m : Nat) :
    reconUpTo (k + 1) t xs fs m = reconStep t xs fs m (reconUpTo k t xs fs m) k := by
  simp [reconUpTo, List.range_succ]

/-- What the sum answers, whole (R156): the sum of the f_i times their coefficients, mod m, when every coefficient
exists; DomainError when one does not. -/
theorem reconUpTo_spec (t : Nat) (xs fs : Nat → Nat) {m : Nat} (hm : m ≠ 0) : ∀ k,
    (∃ l : Nat → Nat, (∀ i < k, lag i t xs m = .ok (l i)) ∧
      ∃ v, reconUpTo k t xs fs m = .ok v ∧ v < m ∧ v ≡ ∑ i ∈ range k, fs i * l i [MOD m]) ∨
    ((∃ i < k, lag i t xs m = .error .domain) ∧ reconUpTo k t xs fs m = .error .domain)
  | 0 => .inl ⟨fun _ => 0, by simp, 0, rfl, Nat.pos_of_ne_zero hm, by simp [Nat.ModEq.refl]⟩
  | k + 1 => by
    rw [reconUpTo_succ]
    rcases reconUpTo_spec t xs fs hm k with ⟨l, hl, v, hv, -, hsum⟩ | ⟨⟨i, hi, herr⟩, hv⟩
    · rcases lag_spec k t xs hm with ⟨-, c, hc, -, -⟩ | ⟨-, hc⟩
      · refine .inl ⟨fun i => if i = k then c else l i, ?_, (v + fs k * c) % m, ?_, Nat.mod_lt _ (Nat.pos_of_ne_zero hm), ?_⟩
        · intro i hi
          by_cases h : i = k
          · simp [h, hc]
          · simp only [if_neg h]
            exact hl i (by omega)
        · rw [hv]
          simp only [reconStep, hc]
        · refine (Nat.mod_modEq _ _).trans ?_
          rw [sum_range_succ]
          refine Nat.ModEq.add ?_ (by simp [Nat.ModEq.refl])
          refine hsum.trans ?_
          have : ∑ i ∈ range k, fs i * l i = ∑ i ∈ range k, fs i * (if i = k then c else l i) := by
            apply sum_congr rfl
            intro i hi
            have : i ≠ k := by
              have := mem_range.mp hi
              omega
            simp [this]
          rw [this]
      · refine .inr ⟨⟨k, by omega, hc⟩, ?_⟩
        rw [hv]
        simp only [reconStep, hc]
    · refine .inr ⟨⟨i, by omega, herr⟩, ?_⟩
      rw [hv]
      rfl

theorem recon_spec (t : Nat) (xs fs : Nat → Nat) {m : Nat} (hm : m ≠ 0) :
    (∃ l : Nat → Nat, (∀ i < t, lag i t xs m = .ok (l i)) ∧
      ∃ v, recon t xs fs m = .ok v ∧ v < m ∧ v ≡ ∑ i ∈ range t, fs i * l i [MOD m]) ∨
    ((∃ i < t, lag i t xs m = .error .domain) ∧ recon t xs fs m = .error .domain) :=
  reconUpTo_spec t xs fs hm t

/-- A reconstructed value is below the modulus. -/
theorem recon_lt {t m v : Nat} {xs fs : Nat → Nat} (hm : m ≠ 0) (h : recon t xs fs m = .ok v) : v < m := by
  rcases recon_spec t xs fs hm with ⟨-, -, y, hy, hlt, -⟩ | ⟨-, hy⟩ <;> rw [hy] at h <;> cases h
  exact hlt

end Sys2Proof.Machine
end

