-- ==== Sys2Proof/Laws/Exec.lean ====
section
/-!
SUPPORT. What a command can do, said once: every command but CLEAR ends by finishing with its result, which is below
the modulus (30_encoding.md R88, 10_state.md R23).
-/

namespace Sys2Proof.Machine

/-- The result of each command in a state, before it is written: a number or an error. CLEAR has none (0 here). -/
def resultOf (i : Instr) (s : State) : Except Err Nat :=
  match i with
  | .modred _ ra rm => checkModulus (s.regVal rm) (.ok (s.regVal ra % s.regVal rm))
  | .modadd _ ra rb rm => checkModulus (s.regVal rm) (.ok ((s.regVal ra + s.regVal rb) % s.regVal rm))
  | .modsub _ ra rb rm =>
    checkModulus (s.regVal rm) (.ok (residue ((s.regVal ra : Int) - s.regVal rb) (s.regVal rm)))
  | .modneg _ ra rm => checkModulus (s.regVal rm) (.ok (residue (0 - (s.regVal ra : Int)) (s.regVal rm)))
  | .modmul _ ra rb rm => checkModulus (s.regVal rm) (.ok (s.regVal ra * s.regVal rb % s.regVal rm))
  | .modexp _ ra rb rm => checkModulus (s.regVal rm) (.ok (modexp (s.regVal ra) (s.regVal rb) (s.regVal rm)))
  | .modinv _ ra rm => checkModulus (s.regVal rm) (modinv (s.regVal ra) (s.regVal rm))
  | .lagcoef _ i t rm => checkLagrange s.count.toNat t (s.regVal rm) (decide (t ≤ i))
      (lag i t (fun n => s.slotX n % s.regVal rm) (s.regVal rm))
  | .lagrecon _ t rm => checkLagrange s.count.toNat t (s.regVal rm) false
      (recon t (fun n => s.slotX n % s.regVal rm) (fun n => s.slotF n % s.regVal rm) (s.regVal rm))
  | .clear => .ok 0

/-- A command with a destination finishes with its result. -/
theorem exec_eq_finish {i : Instr} {rd : Reg} (h : i.dest = some rd) (s : State) :
    exec i s = .next (s.finish rd (resultOf i s)) := by
  cases i <;> simp only [Instr.dest, Option.some.injEq, reduceCtorEq] at h <;> subst h <;> rfl

theorem exec_clear (s : State) : exec .clear s = .next s.zeroise := rfl

/-- CLEAR is the only command without a destination (10_state.md R21). -/
theorem eq_clear_of_dest {i : Instr} (h : i.dest = none) : i = .clear := by
  cases i <;> first | rfl | cases h

/-- All a command can do: finish with its result, or clear. -/
theorem exec_cases (i : Instr) (s : State) :
    (∃ rd, i.dest = some rd ∧ exec i s = .next (s.finish rd (resultOf i s))) ∨
      (i = .clear ∧ exec i s = .next s.zeroise) := by
  cases h : i.dest with
  | none => exact .inr ⟨eq_clear_of_dest h, by rw [eq_clear_of_dest h]; rfl⟩
  | some rd => exact .inl ⟨rd, rfl, exec_eq_finish h s⟩

/-- No command stops the machine (60_exceptions.md R187, R190). -/
theorem exec_next (i : Instr) (s : State) : ∃ t, exec i s = .next t := by
  rcases exec_cases i s with ⟨rd, -, h⟩ | ⟨-, h⟩
  · exact ⟨_, h⟩
  · exact ⟨_, h⟩

/-- What a command word can do: take IllegalCommand, or what its command does. -/
theorem runCommand_cases (c : BusWord) (s : State) :
    ((∃ e, decode c = .error e) ∧ runCommand c s = .next (s.raise .illegalCommand)) ∨
      (∃ i, decode c = .ok i ∧ runCommand c s = exec i s) := by
  unfold runCommand
  cases decode c with
  | error e => exact .inl ⟨⟨e, rfl⟩, rfl⟩
  | ok i => exact .inr ⟨i, rfl, rfl⟩

theorem runCommand_next (c : BusWord) (s : State) : ∃ t, runCommand c s = .next t := by
  rcases runCommand_cases c s with ⟨-, h⟩ | ⟨i, -, h⟩
  · exact ⟨_, h⟩
  · rw [h]
    exact exec_next i s

/-- A command keeps the list of events to come and the last response. -/
theorem exec_host {i : Instr} {s t : State} (h : exec i s = .next t) : t.host = s.host ∧ t.response = s.response := by
  rcases exec_cases i s with ⟨rd, -, h'⟩ | ⟨-, h'⟩ <;> rw [h'] at h <;> cases h <;> simp

/-- A command leaves COUNT as it was, or 0 (10_state.md R27). -/
theorem exec_count {i : Instr} {s t : State} (h : exec i s = .next t) : t.count = s.count ∨ t.count = 0#5 := by
  rcases exec_cases i s with ⟨rd, -, h'⟩ | ⟨-, h'⟩ <;> rw [h'] at h <;> cases h
  · exact .inl (by simp)
  · exact .inr rfl

/-- A result is below the modulus register's value, so writing it truncates nothing (10_state.md R23). -/
theorem resultOf_lt {i : Instr} {s : State} {rm : Reg} {v : Nat} (hm : i.sources.getLast? = some rm)
    (h : resultOf i s = .ok v) : v < s.regVal rm := by
  cases i with
  | clear => cases hm
  | modred rd ra rm' =>
    obtain rfl : rm' = rm := by simpa [Instr.sources] using hm
    obtain ⟨h0, hv⟩ := checkModulus_ok h
    cases hv
    exact Nat.mod_lt _ (Nat.pos_of_ne_zero h0)
  | modadd rd ra rb rm' =>
    obtain rfl : rm' = rm := by simpa [Instr.sources] using hm
    obtain ⟨h0, hv⟩ := checkModulus_ok h
    cases hv
    exact Nat.mod_lt _ (Nat.pos_of_ne_zero h0)
  | modsub rd ra rb rm' =>
    obtain rfl : rm' = rm := by simpa [Instr.sources] using hm
    obtain ⟨h0, hv⟩ := checkModulus_ok h
    cases hv
    exact residue_lt _ h0
  | modneg rd ra rm' =>
    obtain rfl : rm' = rm := by simpa [Instr.sources] using hm
    obtain ⟨h0, hv⟩ := checkModulus_ok h
    cases hv
    exact residue_lt _ h0
  | modmul rd ra rb rm' =>
    obtain rfl : rm' = rm := by simpa [Instr.sources] using hm
    obtain ⟨h0, hv⟩ := checkModulus_ok h
    cases hv
    exact Nat.mod_lt _ (Nat.pos_of_ne_zero h0)
  | modexp rd ra rb rm' =>
    obtain rfl : rm' = rm := by simpa [Instr.sources] using hm
    obtain ⟨h0, hv⟩ := checkModulus_ok h
    cases hv
    rw [modexp_eq _ (s.regVal_lt rb) h0]
    exact Nat.mod_lt _ (Nat.pos_of_ne_zero h0)
  | modinv rd ra rm' =>
    obtain rfl : rm' = rm := by simpa [Instr.sources] using hm
    obtain ⟨h0, hv⟩ := checkModulus_ok h
    exact modinv_lt h0 hv
  | lagcoef rd k t rm' =>
    obtain rfl : rm' = rm := by simpa [Instr.sources] using hm
    obtain ⟨-, -, h0, -, hv⟩ := checkLagrange_ok h
    exact lag_lt h0 hv
  | lagrecon rd t rm' =>
    obtain rfl : rm' = rm := by simpa [Instr.sources] using hm
    obtain ⟨-, -, h0, -, hv⟩ := checkLagrange_ok h
    exact recon_lt h0 hv

/-- The written value read back as a natural is the result itself. -/
theorem ofNat_toNat_of_lt {v m : Nat} (hv : v < m) (hm : m < 2 ^ 256) : (BitVec.ofNat 256 v).toNat = v := by
  rw [BitVec.toNat_ofNat]
  exact Nat.mod_eq_of_lt (by omega)

/-- What `complete` leaves when the result is below a modulus: the result's value in the destination, error code 0. -/
theorem State.complete_eq (s : State) (rd : Reg) {v m : Nat} (hv : v < m) (hm : m < 2 ^ 256) :
    ∃ w : Word, w.toNat = v ∧ s.complete rd v = { s with x := s.x.set rd w, err := 0#2 } :=
  ⟨BitVec.ofNat 256 v, ofNat_toNat_of_lt hv hm, rfl⟩

/-- A command word keeps the list of events to come and the last response. -/
theorem runCommand_host {c : BusWord} {s t : State} (h : runCommand c s = .next t) :
    t.host = s.host ∧ t.response = s.response := by
  rcases runCommand_cases c s with ⟨-, h'⟩ | ⟨i, -, h'⟩
  · rw [h'] at h
    cases h
    exact ⟨rfl, rfl⟩
  · exact exec_host (h' ▸ h)

end Sys2Proof.Machine
end

