-- ==== Sys2Proof/Laws/PerInstr.lean ====
section
/-!
SUPPORT. Per-instruction laws (LAWS.json): OwnRow, an encoded command matches the row of its own opcode.
-/

namespace Sys2Proof.Laws.OwnRow

set_option Elab.async false

/-- The word of a well-formed command matches its own row of the opcode map (30_encoding.md R86, R87). -/
def Statement (i : Instr) : Prop :=
  i.wf = true → ∃ r ∈ opcodeMap, r.op = i.op ∧ r.matchesWord (encode i) = true

theorem modred (rd ra rm : Reg) : Statement (.modred rd ra rm) := fun _ =>
  ⟨⟨.modred, 0xFF0F00FF#32, 0x00000001#32⟩, by decide, rfl, by simp only [Row.matchesWord, encode, formatR_mask_rb0]; decide⟩

theorem modadd (rd ra rb rm : Reg) : Statement (.modadd rd ra rb rm) := fun _ =>
  ⟨⟨.modadd, 0xFF0000FF#32, 0x00000002#32⟩, by decide, rfl, by simp only [Row.matchesWord, encode, formatR_mask]; decide⟩

theorem modsub (rd ra rb rm : Reg) : Statement (.modsub rd ra rb rm) := fun _ =>
  ⟨⟨.modsub, 0xFF0000FF#32, 0x00000003#32⟩, by decide, rfl, by simp only [Row.matchesWord, encode, formatR_mask]; decide⟩

theorem modneg (rd ra rm : Reg) : Statement (.modneg rd ra rm) := fun _ =>
  ⟨⟨.modneg, 0xFF0F00FF#32, 0x00000004#32⟩, by decide, rfl, by simp only [Row.matchesWord, encode, formatR_mask_rb0]; decide⟩

theorem modmul (rd ra rb rm : Reg) : Statement (.modmul rd ra rb rm) := fun _ =>
  ⟨⟨.modmul, 0xFF0000FF#32, 0x00000005#32⟩, by decide, rfl, by simp only [Row.matchesWord, encode, formatR_mask]; decide⟩

theorem modexp (rd ra rb rm : Reg) : Statement (.modexp rd ra rb rm) := fun _ =>
  ⟨⟨.modexp, 0xFF0000FF#32, 0x00000010#32⟩, by decide, rfl, by simp only [Row.matchesWord, encode, formatR_mask]; decide⟩

theorem modinv (rd ra rm : Reg) : Statement (.modinv rd ra rm) := fun _ =>
  ⟨⟨.modinv, 0xFF0F00FF#32, 0x00000011#32⟩, by decide, rfl, by simp only [Row.matchesWord, encode, formatR_mask_rb0]; decide⟩

theorem lagcoef (rd : Reg) (i t : Nat) (rm : Reg) : Statement (.lagcoef rd i t rm) := fun _ =>
  ⟨⟨.lagcoef, 0xE00F00FF#32, 0x00000020#32⟩, by decide, rfl, by simp only [Row.matchesWord, encode, formatL_mask]; decide⟩

theorem lagrecon (rd : Reg) (t : Nat) (rm : Reg) : Statement (.lagrecon rd t rm) := fun _ =>
  ⟨⟨.lagrecon, 0xE00FF0FF#32, 0x00000021#32⟩, by decide, rfl, by simp only [Row.matchesWord, encode, formatL_mask_i0]; decide⟩

theorem clear : Statement .clear := fun _ =>
  ⟨⟨.clear, 0xFFFFFFFF#32, 0x000000F0#32⟩, by decide, rfl, by decide⟩

end Sys2Proof.Laws.OwnRow
end

