-- ==== Sys2Proof/Laws/Shares.lean ====
section
/-!
SUPPORT. What `lag` answers for the table of a state, in the terms of Safety.lean: the slots' raw indices instead of
their residues (43_lagrange.md R150, R151, R155).
-/

namespace Sys2Proof.Machine

open Finset

theorem mod_cast_modEq (x m : Nat) : ((x % m : Nat) : Int) ≡ x [ZMOD m] := by
  push_cast
  exact Int.mod_modEq _ _

/-- `lag` of slot i over slots 0 .. t-1, whole. -/
theorem State.lag_spec (s : State) (i t : Nat) {m : Nat} (hm : m ≠ 0) :
    ((∀ j < t, j ≠ i → s.invertiblePair m i j) ∧
      ∃ v, lag i t (fun n => s.slotX n % m) m = .ok v ∧ v < m ∧
        (v : Int) * s.denominator t i ≡ s.numerator t i [ZMOD m]) ∨
    ((∃ j < t, j ≠ i ∧ ¬ s.invertiblePair m i j) ∧ lag i t (fun n => s.slotX n % m) m = .error .domain) := by
  have hsub : ∀ j, ((s.slotX i % m : Nat) : Int) - ((s.slotX j % m : Nat) : Int) ≡ s.slotX i - s.slotX j [ZMOD m] :=
    fun j => (mod_cast_modEq _ m).sub (mod_cast_modEq _ m)
  have hd : ∏ j ∈ (range t).erase i, (((s.slotX i % m : Nat) : Int) - ((s.slotX j % m : Nat) : Int))
      ≡ s.denominator t i [ZMOD m] := Int.ModEq.prod fun j _ => hsub j
  have hn : ∏ j ∈ (range t).erase i, (-((s.slotX j % m : Nat) : Int)) ≡ s.numerator t i [ZMOD m] :=
    Int.ModEq.prod fun j _ => (mod_cast_modEq _ m).neg
  rcases Sys2Proof.Machine.lag_spec i t (fun n => s.slotX n % m) hm with
    ⟨h, v, hv, hlt, hmul⟩ | ⟨⟨j, hj, hne, hg⟩, hv⟩
  · exact .inl ⟨fun j hj hne => (gcd_eq_one_of_modEq (hsub j)).mp (h j hj hne), v, hv, hlt,
      ((hd.symm.mul_left _).trans hmul).trans hn⟩
  · exact .inr ⟨⟨j, hj, hne, fun h => hg ((gcd_eq_one_of_modEq (hsub j)).mpr h)⟩, hv⟩

/-- The denominators' product has an inverse when every denominator factor has one. -/
theorem State.denominator_coprime {s : State} {i t m : Nat} (h : ∀ j < t, j ≠ i → s.invertiblePair m i j) :
    Int.gcd (s.denominator t i) m = 1 :=
  (gcd_prod_eq_one_iff _ i t m).mpr h

/-- A coefficient `lag` returned. -/
theorem State.lag_ok {s : State} {i t m v : Nat} (hm : m ≠ 0) (h : lag i t (fun n => s.slotX n % m) m = .ok v) :
    (∀ j < t, j ≠ i → s.invertiblePair m i j) ∧ v < m ∧
      (v : Int) * s.denominator t i ≡ s.numerator t i [ZMOD m] := by
  rcases s.lag_spec i t hm with ⟨hh, w, hv, hlt, hmul⟩ | ⟨-, hv⟩
  · rw [h] at hv
    cases hv
    exact ⟨hh, hlt, hmul⟩
  · rw [h] at hv
    cases hv

end Sys2Proof.Machine
end

