-- ==== Sys2Proof/Laws/Window.lean ====
section
/-!
SUPPORT. The window: limbs of a value read after they are written, the address map and its inverse, and a read of a
mapped word after a write (20_memory.md R51 to R57).
-/

namespace Sys2Proof.Machine

theorem limb_toNat (v : Word) (k : Limb) : (limb v k).toNat = v.toNat / 2 ^ limbShift k % 2 ^ 32 := by
  simp [limb, BitVec.extractLsb'_toNat, Nat.shiftRight_eq_div_pow]

/-- A replaced limb keeps the value below 2^256, so nothing is truncated (20_memory.md R57). -/
theorem setLimb_toNat (v : Word) (k : Limb) (w : BusWord) :
    (setLimb v k w).toNat = v.toNat - (limb v k).toNat * 2 ^ limbShift k + w.toNat * 2 ^ limbShift k := by
  have hv := v.isLt
  have hw := w.isLt
  rw [setLimb, BitVec.toNat_ofNat, limb_toNat]
  apply Nat.mod_eq_of_lt
  fin_cases k <;> simp only [limbShift] <;> norm_num at hv hw ⊢ <;> omega

theorem limb_setLimb_same (v : Word) (k : Limb) (w : BusWord) : limb (setLimb v k w) k = w := by
  have hv := v.isLt
  have hw := w.isLt
  apply BitVec.eq_of_toNat_eq
  rw [limb_toNat, setLimb_toNat, limb_toNat]
  fin_cases k <;> simp only [limbShift] <;> norm_num at hv hw ⊢ <;> omega

theorem limb_setLimb_ne (v : Word) {k j : Limb} (w : BusWord) (h : j ≠ k) : limb (setLimb v k w) j = limb v j := by
  have hv := v.isLt
  have hw := w.isLt
  apply BitVec.eq_of_toNat_eq
  rw [limb_toNat, setLimb_toNat, limb_toNat, limb_toNat]
  fin_cases k <;> fin_cases j <;> first
    | exact absurd rfl h
    | (simp only [limbShift]; norm_num at hv hw ⊢; omega)

/-- `v = limb(v,0) || ... || limb(v,7)`, so a value is known by its limbs (20_memory.md R54). -/
theorem eq_of_limbs {v w : Word} (h : ∀ k, limb v k = limb w k) : v = w := by
  have hv := v.isLt
  have hw := w.isLt
  apply BitVec.eq_of_toNat_eq
  have hk : ∀ k, v.toNat / 2 ^ limbShift k % 2 ^ 32 = w.toNat / 2 ^ limbShift k % 2 ^ 32 := by
    intro k
    rw [← limb_toNat, ← limb_toNat, h k]
  have h0 := hk 0
  have h1 := hk 1
  have h2 := hk 2
  have h3 := hk 3
  have h4 := hk 4
  have h5 := hk 5
  have h6 := hk 6
  have h7 := hk 7
  simp only [limbShift] at h0 h1 h2 h3 h4 h5 h6 h7
  norm_num at hv hw h0 h1 h2 h3 h4 h5 h6 h7
  omega

/-- `locate` with the window's constants as numbers (20_memory.md R51, R55). -/
theorem locate_eq (off : Nat) (size : AccessSize) :
    locate off size =
      if size = .single 4 ∧ off % 4 = 0 then
        if off = 0 then some .cmd
        else if off = 4 then some .status
        else if off = 8 then some .count
        else if off < 512 then none
        else locateStorage off
      else none := rfl

/-- The inverse map with the window's constants as numbers (20_memory.md R52, R53). -/
theorem locateStorage_eq (off : Nat) :
    locateStorage off =
      if off < 1024 then some (.reg (Fin.ofNat 16 ((off - 512) / 32)) (Fin.ofNat 8 ((off - 512) % 32 / 4)))
      else if off < 2048 then
        if (off - 1024) % 64 < 32 then
          some (.slotX (Fin.ofNat 16 ((off - 1024) / 64)) (Fin.ofNat 8 ((off - 1024) % 32 / 4)))
        else some (.slotF (Fin.ofNat 16 ((off - 1024) / 64)) (Fin.ofNat 8 ((off - 1024) % 32 / 4)))
      else none := rfl

@[simp] theorem Loc.offset_cmd : Loc.cmd.offset = 0 := rfl
@[simp] theorem Loc.offset_status : Loc.status.offset = 4 := rfl
@[simp] theorem Loc.offset_count : Loc.count.offset = 8 := rfl
@[simp] theorem Loc.offset_reg (n : Reg) (k : Limb) : (Loc.reg n k).offset = 512 + 32 * n.val + 4 * k.val := rfl
@[simp] theorem Loc.offset_slotX (n : Slot) (k : Limb) : (Loc.slotX n k).offset = 1024 + 64 * n.val + 4 * k.val := rfl
@[simp] theorem Loc.offset_slotF (n : Slot) (k : Limb) :
    (Loc.slotF n k).offset = 1024 + 64 * n.val + 32 + 4 * k.val := rfl

theorem finOfNat_eq_of_mod {n a : Nat} [NeZero n] {k : Fin n} (h : a % n = k.val) : Fin.ofNat n a = k :=
  Fin.ext h

/-- The address map and its inverse (20_memory.md R51 to R53): every mapped word is found at its offset. -/
theorem locate_offset (l : Loc) : locate l.offset (.single 4) = some l := by
  cases l with
  | cmd => rfl
  | status => rfl
  | count => rfl
  | reg n k =>
    have hn := n.isLt
    have hk := k.isLt
    rw [Loc.offset_reg, locate_eq, if_pos ⟨rfl, by omega⟩, if_neg (by omega), if_neg (by omega), if_neg (by omega),
      if_neg (by omega), locateStorage_eq, if_pos (by omega), finOfNat_eq_of_mod (k := n) (by omega),
      finOfNat_eq_of_mod (k := k) (by omega)]
  | slotX n k =>
    have hn := n.isLt
    have hk := k.isLt
    rw [Loc.offset_slotX, locate_eq, if_pos ⟨rfl, by omega⟩, if_neg (by omega), if_neg (by omega), if_neg (by omega),
      if_neg (by omega), locateStorage_eq, if_neg (by omega), if_pos (by omega), if_pos (by omega),
      finOfNat_eq_of_mod (k := n) (by omega), finOfNat_eq_of_mod (k := k) (by omega)]
  | slotF n k =>
    have hn := n.isLt
    have hk := k.isLt
    rw [Loc.offset_slotF, locate_eq, if_pos ⟨rfl, by omega⟩, if_neg (by omega), if_neg (by omega), if_neg (by omega),
      if_neg (by omega), locateStorage_eq, if_neg (by omega), if_pos (by omega), if_neg (by omega),
      finOfNat_eq_of_mod (k := n) (by omega), finOfNat_eq_of_mod (k := k) (by omega)]

/-- An offset from REGS on that the inverse map takes to a word is that word's offset, if it is a multiple of 4. -/
theorem locateStorage_eq_some {off : Nat} {l : Loc} (h4 : off % 4 = 0) (hr : 512 ≤ off)
    (h : locateStorage off = some l) : off = l.offset := by
  rw [locateStorage_eq] at h
  split at h
  · cases h
    simp only [Loc.offset_reg, Fin.ofNat]
    omega
  · split at h
    · split at h <;> cases h <;> simp only [Loc.offset_slotX, Loc.offset_slotF, Fin.ofNat] <;> omega
    · cases h

/-- Only a 32-bit access at a word's own offset reaches it (20_memory.md R55). -/
theorem locate_eq_some {off : Nat} {size : AccessSize} {l : Loc} (h : locate off size = some l) :
    size = .single 4 ∧ off = l.offset := by
  rw [locate_eq] at h
  split at h
  · rename_i hok
    refine ⟨hok.1, ?_⟩
    split at h
    · cases h; assumption
    · split at h
      · cases h; assumption
      · split at h
        · cases h; assumption
        · split at h
          · cases h
          · exact locateStorage_eq_some hok.2 (by omega) h
  · cases h

theorem Loc.offset_injective {l k : Loc} (h : l.offset = k.offset) : l = k := by
  have hl := locate_offset l
  rw [h, locate_offset k] at hl
  exact (Option.some.inj hl).symm

/-- What `saturateCount` stores is `min(v, 16)` (10_state.md R27). -/
theorem saturateCount_toNat (v : BusWord) : (saturateCount v).toNat = min v.toNat 16 := by
  have h : min v.toNat Config.NSLOT ≤ 16 := Nat.min_le_right _ _
  simp only [saturateCount, BitVec.toNat_ofNat]
  exact Nat.mod_eq_of_lt (by omega)

/-- Every word but the one written (and CMD and STATUS, which no write of theirs changes) reads as before. -/
theorem State.readLoc_writeLoc_ne (s : State) (v : BusWord) {l k : Loc} (h : k ≠ l) :
    (s.writeLoc v l).readLoc k = s.readLoc k := by
  cases l with
  | cmd => rfl
  | status => rfl
  | count => cases k <;> first | rfl | exact absurd rfl h
  | reg n i =>
    cases k with
    | reg m j =>
      by_cases hn : n = m
      · subst hn
        have hj : j ≠ i := fun e => h (by rw [e])
        simp [State.writeLoc, State.readLoc, limb_setLimb_ne _ _ hj]
      · have : n.val ≠ m.val := fun e => hn (Fin.ext e)
        simp [State.writeLoc, State.readLoc, Vector.getElem_set_ne _ _ this]
    | _ => rfl
  | slotX n i =>
    cases k with
    | slotX m j =>
      by_cases hn : n = m
      · subst hn
        have hj : j ≠ i := fun e => h (by rw [e])
        simp [State.writeLoc, State.readLoc, limb_setLimb_ne _ _ hj]
      · have : n.val ≠ m.val := fun e => hn (Fin.ext e)
        simp [State.writeLoc, State.readLoc, Vector.getElem_set_ne _ _ this]
    | _ => rfl
  | slotF n i =>
    cases k with
    | slotF m j =>
      by_cases hn : n = m
      · subst hn
        have hj : j ≠ i := fun e => h (by rw [e])
        simp [State.writeLoc, State.readLoc, limb_setLimb_ne _ _ hj]
      · have : n.val ≠ m.val := fun e => hn (Fin.ext e)
        simp [State.writeLoc, State.readLoc, Vector.getElem_set_ne _ _ this]
    | _ => rfl

/-- A limb reads as it was written (20_memory.md R57, R61). -/
theorem State.readLoc_writeLoc_reg (s : State) (v : BusWord) (n : Reg) (k : Limb) :
    (s.writeLoc v (.reg n k)).readLoc (.reg n k) = v := by
  simp [State.writeLoc, State.readLoc, limb_setLimb_same]

theorem State.readLoc_writeLoc_slotX (s : State) (v : BusWord) (n : Slot) (k : Limb) :
    (s.writeLoc v (.slotX n k)).readLoc (.slotX n k) = v := by
  simp [State.writeLoc, State.readLoc, limb_setLimb_same]

theorem State.readLoc_writeLoc_slotF (s : State) (v : BusWord) (n : Slot) (k : Limb) :
    (s.writeLoc v (.slotF n k)).readLoc (.slotF n k) = v := by
  simp [State.writeLoc, State.readLoc, limb_setLimb_same]

@[simp] theorem State.writeLoc_host (s : State) (v : BusWord) (l : Loc) : (s.writeLoc v l).host = s.host := by
  cases l <;> rfl

@[simp] theorem State.writeLoc_response (s : State) (v : BusWord) (l : Loc) :
    (s.writeLoc v l).response = s.response := by
  cases l <;> rfl

@[simp] theorem State.writeLoc_err (s : State) (v : BusWord) (l : Loc) : (s.writeLoc v l).err = s.err := by
  cases l <;> rfl

/-- A read at a mapped word's offset returns its data (20_memory.md R56). -/
theorem State.memRead_offset (s : State) (l : Loc) : s.memRead l.offset (.single 4) = .okData (s.readLoc l) := by
  unfold State.memRead
  rw [locate_offset]

/-- The accesses the window does not accept (20_memory.md R55). -/
theorem locate_eq_none_iff (off : Nat) (size : AccessSize) :
    locate off size = none ↔ ¬ (size = .single 4 ∧ off % 4 = 0 ∧ (off < 12 ∨ (512 ≤ off ∧ off < 2048))) := by
  rw [locate_eq, locateStorage_eq]
  by_cases h : size = .single 4 ∧ off % 4 = 0
  · obtain ⟨h1, h2⟩ := h
    simp only [h1, h2, and_self, if_true, true_and]
    split_ifs <;> simp only [false_iff, true_iff, not_not] <;> omega
  · rw [if_neg h]
    simp only [true_iff]
    exact fun h' => h ⟨h'.1, h'.2.1⟩

end Sys2Proof.Machine
end

