-- ==== Sys2Proof/Laws/Step.lean ====
section
/-!
SUPPORT. What a step can do, said once (00_scope.md R8): nothing without an event; a read answered; a write refused by
the window, a command, or a storage write; a reset.
-/

namespace Sys2Proof.Machine

theorem step_idle {s : State} (h : s.host = []) : step s = .next s := by
  simp [step, serveHost, h]

theorem step_event (s : State) (e : HostEvent) (rest : List HostEvent) :
    step { s with host := e :: rest } = transact e { s with host := rest } := rfl

theorem step_read (s : State) (off : Nat) (size : AccessSize) (rest : List HostEvent) :
    step { s with host := .read off size :: rest } =
      .next { s with host := rest, response := some (s.memRead off size) } := rfl

theorem step_reset (s : State) (rest : List HostEvent) :
    step { s with host := .reset :: rest } = .next { State.reset with host := rest } := rfl

/-- A CMD write runs its word and answers OK (20_memory.md R58). -/
theorem step_cmd (s : State) (c : BusWord) (rest : List HostEvent) :
    step { s with host := cmdWrite c :: rest } = answered .ok (runCommand c { s with host := rest }) := rfl

/-- A write of a mapped word other than CMD (20_memory.md R57). -/
theorem memWrite_loc {off : Nat} {size : AccessSize} {l : Loc} (h : locate off size = some l) (hc : l ≠ .cmd)
    (v : BusWord) (s : State) : memWrite off size v s = .next ((s.writeLoc v l).respond .ok) := by
  unfold memWrite
  rw [h]
  cases l <;> first | rfl | exact absurd rfl hc

theorem memWrite_none {off : Nat} {size : AccessSize} (h : locate off size = none) (v : BusWord) (s : State) :
    memWrite off size v s = .next (s.respond .busError) := by
  unfold memWrite
  rw [h]

/-- All a write can do. -/
theorem memWrite_cases (off : Nat) (size : AccessSize) (v : BusWord) (s : State) :
    (locate off size = none ∧ memWrite off size v s = .next (s.respond .busError)) ∨
      (locate off size = some .cmd ∧ ∃ t, runCommand v s = .next t ∧ memWrite off size v s = .next (t.respond .ok)) ∨
      (∃ l, l ≠ .cmd ∧ locate off size = some l ∧ memWrite off size v s = .next ((s.writeLoc v l).respond .ok)) := by
  cases h : locate off size with
  | none => exact .inl ⟨rfl, memWrite_none h v s⟩
  | some l =>
    by_cases hc : l = .cmd
    · subst hc
      obtain ⟨t, ht⟩ := runCommand_next v s
      refine .inr (.inl ⟨rfl, t, ht, ?_⟩)
      unfold memWrite
      rw [h]
      simp only [ht]
      rfl
    · exact .inr (.inr ⟨l, hc, rfl, memWrite_loc h hc v s⟩)

/-- All an event can do: every event is answered in a next state. -/
theorem transact_cases (e : HostEvent) (s : State) :
    (∃ off size, e = .read off size ∧ transact e s = .next (s.respond (s.memRead off size))) ∨
      (∃ off size v, e = .write off size v ∧ transact e s = memWrite off size v s) ∨
      (e = .reset ∧ transact e s = .next s.platformReset) := by
  cases e with
  | read off size => exact .inl ⟨off, size, rfl, rfl⟩
  | write off size v => exact .inr (.inl ⟨off, size, v, rfl, rfl⟩)
  | reset => exact .inr (.inr ⟨rfl, rfl⟩)

theorem transact_next (e : HostEvent) (s : State) : ∃ t, transact e s = .next t := by
  rcases transact_cases e s with ⟨_, _, -, h⟩ | ⟨off, size, v, -, h⟩ | ⟨-, h⟩
  · exact ⟨_, h⟩
  · rw [h]
    rcases memWrite_cases off size v s with ⟨-, h'⟩ | ⟨-, t, -, h'⟩ | ⟨l, -, -, h'⟩ <;> exact ⟨_, h'⟩
  · exact ⟨_, h⟩

/-- The storage write's effect on COUNT: none, or a value of at most 16. -/
theorem State.writeLoc_count_le (s : State) (v : BusWord) (l : Loc) (h : s.count.toNat ≤ 16) :
    (s.writeLoc v l).count.toNat ≤ 16 := by
  cases l with
  | count =>
    change (saturateCount v).toNat ≤ 16
    rw [saturateCount_toNat]
    omega
  | _ => exact h

/-- A write of a mapped word other than CMD, as a step. -/
theorem step_write (s : State) {l : Loc} (hl : l ≠ .cmd) (v : BusWord) (rest : List HostEvent) :
    step { s with host := .write l.offset (.single 4) v :: rest } =
      .next (({ s with host := rest }.writeLoc v l).respond .ok) :=
  memWrite_loc (locate_offset l) hl v _

/-- A run of one step more (Host/Core.lean), for any machine. -/
theorem run_succ_of_step {M : Host.Core} {s t : M.State} (h : M.step s = .next t) (n : Nat) :
    M.run (n + 1) s = M.run n t := by
  simp only [Host.Core.run, h]

/-- The same of this machine. -/
theorem core_run_succ {s t : State} (h : step s = .next t) (n : Nat) :
    Sys2Proof.core.run (n + 1) s = Sys2Proof.core.run n t :=
  run_succ_of_step (M := Sys2Proof.core) h n

end Sys2Proof.Machine
end

