-- ==== Sys2Proof/Tests/Slice0.lean ====
section
/-!
SUPPORT. Tests: ill-formed commands, words of every family, one step of every command on values of
95_test_vectors.md, the window; and for every statement with hypotheses a witness that meets them, clause by clause.
-/

namespace Sys2Proof.Tests.Slice0

open Sys2Proof.Machine

set_option Elab.async false

/-- The default modulus of 95_test_vectors.md. -/
def P127 : Nat := 2 ^ 127 - 1

/-- All 256 bits set (95_test_vectors.md). -/
def M256 : Nat := 2 ^ 256 - 1

/-- The reset state with the listed registers, indices, values and COUNT changed (95_test_vectors.md, Conventions). -/
def start (regs : List (Reg × Nat)) (xs fs : List Nat) (count : Nat) : State :=
  regs.foldl (fun s p => s.setReg p.1 (BitVec.ofNat 256 p.2))
    { State.reset with
        tX := Vector.ofFn (fun n => BitVec.ofNat 256 (xs.getD n.val 0))
        tF := Vector.ofFn (fun n => BitVec.ofNat 256 (fs.getD n.val 0))
        count := BitVec.ofNat 5 count }

/-- Register r and STATUS.ERR after one step that runs word w. -/
def afterWord (w : Nat) (r : Reg) (s : State) : Option (Nat × Nat) :=
  match step (s.withFetchWord 32 w) with
  | .next t => some (t.regVal r, t.err.toNat)
  | _ => none

/-- What one transaction leaves: the response and the state it ended in, the list of events apart. -/
def afterEvent (e : HostEvent) (s : State) : Option (Response × State) :=
  match step { s with host := [e] } with
  | .next t => t.response.map fun r => (r, { t with response := none })
  | _ => none

/-! ### Well-formedness (30_encoding.md R84, R85) -/

theorem test_wf_slot : (Instr.lagcoef 0 15 0 0).wf = true ∧ (Instr.lagcoef 0 16 0 0).wf = false := by decide
theorem test_wf_threshold : (Instr.lagcoef 0 0 31 0).wf = true ∧ (Instr.lagcoef 0 0 32 0).wf = false := by decide
theorem test_wf_lagrecon_threshold : (Instr.lagrecon 0 31 0).wf = true ∧ (Instr.lagrecon 0 32 0).wf = false := by decide

/-! ### Words written out bit by bit: must-be-zero or t, rm, rb, ra or i, rd, opcode (R81, R82, R84, R86) -/

theorem test_decode_modred : decode 0b00000000_0010_0000_0001_0011_00000001#32 = .ok (.modred 3 1 2) := by decide
theorem test_decode_modadd : decode 0b00000000_0011_0010_0001_0100_00000010#32 = .ok (.modadd 4 1 2 3) := by decide
theorem test_decode_modsub : decode 0b00000000_0011_0010_0001_0100_00000011#32 = .ok (.modsub 4 1 2 3) := by decide
theorem test_decode_modneg : decode 0b00000000_0010_0000_0001_0011_00000100#32 = .ok (.modneg 3 1 2) := by decide
theorem test_decode_modmul : decode 0b00000000_0011_0010_0001_0100_00000101#32 = .ok (.modmul 4 1 2 3) := by decide
theorem test_decode_modexp : decode 0b00000000_0011_0010_0001_0100_00010000#32 = .ok (.modexp 4 1 2 3) := by decide
theorem test_decode_modinv : decode 0b00000000_0010_0000_0001_0011_00010001#32 = .ok (.modinv 3 1 2) := by decide
theorem test_decode_lagcoef : decode 0b000_00011_0001_0000_0010_0100_00100000#32 = .ok (.lagcoef 4 2 3 1) := by decide
theorem test_decode_lagrecon : decode 0b000_11111_0001_0000_0000_0100_00100001#32 = .ok (.lagrecon 4 31 1) := by decide
theorem test_decode_clear : decode 0b000000000000000000000000_11110000#32 = .ok .clear := by decide

/-- Encodings of 95_test_vectors.md Part 3. -/
theorem test_encode : encode (.modexp 12 3 5 1) = 0x00153C10#32 ∧ encode (.modadd 8 8 9 1) = 0x00198802#32 ∧
    encode (.lagcoef 7 2 3 1) = 0x03102720#32 ∧ encode (.lagrecon 4 16 1) = 0x10100421#32 ∧
    encode (.modred 15 0 15) = 0x00F00F01#32 := by decide

/-- V-ILL-1 to V-ILL-4: unassigned opcodes. -/
theorem test_illegal_opcode : decode 0x00000000#32 = .error .unassignedOpcode ∧
    decode 0xFFFFFFFF#32 = .error .unassignedOpcode ∧ decode 0x00000006#32 = .error .unassignedOpcode ∧
    decode 0x00000012#32 = .error .unassignedOpcode := by decide

/-- V-ILL-5 to V-ILL-13: a must-be-zero bit that is 1. -/
theorem test_illegal_bit : decode 0x00211301#32 = .error .mustBeZero ∧ decode 0x00211304#32 = .error .mustBeZero ∧
    decode 0x00211311#32 = .error .mustBeZero ∧ decode 0x01321402#32 = .error .mustBeZero ∧
    decode 0x80321410#32 = .error .mustBeZero ∧ decode 0x000001F0#32 = .error .mustBeZero ∧
    decode 0x23100420#32 = .error .mustBeZero ∧ decode 0x03110420#32 = .error .mustBeZero ∧
    decode 0x03101421#32 = .error .mustBeZero := by decide

/-- Assembler text of R91. -/
theorem test_asm : (Instr.modadd 4 1 2 3).asm = "MODADD x4, x1, x2, x3" ∧
    (Instr.lagcoef 5 0 3 1).asm = "LAGCOEF x5, 0, 3, x1" ∧ Instr.clear.asm = "CLEAR" := by decide +kernel

/-! ### One step of every command, at most two per command -/

/-- V-RED-5. -/
theorem test_modred : afterWord 0x00201301 3 (start [(1, M256), (2, P127)] [] [] 0) = some (3, 0) := by decide +kernel
/-- V-RED-8: the destination is the modulus register. -/
theorem test_modred_rd_rm : afterWord 0x00201201 2 (start [(1, 23), (2, 7)] [] [] 0) = some (2, 0) := by decide +kernel
/-- V-ADD-5: the 257-bit sum. -/
theorem test_modadd : afterWord 0x00321402 4 (start [(1, M256), (2, M256), (3, M256 - 1)] [] [] 0) = some (2, 0) := by
  decide +kernel
/-- V-ADD-8: modulus 0. -/
theorem test_modadd_zero : afterWord 0x00321402 4 (start [(1, 3), (2, 4), (4, 99)] [] [] 0) = some (99, 1) := by
  decide +kernel
/-- V-SUB-5: not the wrap at 2^256. -/
theorem test_modsub : afterWord 0x00321403 4 (start [(2, 1), (3, M256)] [] [] 0) = some (M256 - 1, 0) := by
  decide +kernel
/-- V-SUB-1: operands not swapped. -/
theorem test_modsub_order : afterWord 0x00321403 4 (start [(1, 3), (2, 5), (3, 7)] [] [] 0) = some (5, 0) := by
  decide +kernel
/-- V-NEG-5. -/
theorem test_modneg : afterWord 0x00201304 3 (start [(1, M256), (2, P127)] [] [] 0) =
    some (0x7FFFFFFFFFFFFFFFFFFFFFFFFFFFFFFC, 0) := by decide +kernel
/-- V-NEG-3: 0, not m. -/
theorem test_modneg_zero : afterWord 0x00201304 3 (start [(2, 7), (3, 99)] [] [] 0) = some (0, 0) := by decide +kernel
/-- V-MUL-3: the 512-bit product. -/
theorem test_modmul : afterWord 0x00321405 4 (start [(1, M256), (2, M256), (3, M256 - 1)] [] [] 0) = some (1, 0) := by
  decide +kernel
/-- V-MUL-7: squaring in place. -/
theorem test_modmul_square : afterWord 0x00311105 1 (start [(1, 3), (3, 7)] [] [] 0) = some (2, 0) := by decide +kernel
/-- V-EXP-11: the full 256-bit exponent. -/
theorem test_modexp : afterWord 0x00321410 4 (start [(1, 3), (2, M256), (3, P127)] [] [] 0) = some (14348907, 0) := by
  decide +kernel
/-- V-EXP-7: 1 mod 1 = 0 (90_conflicts.md C1). -/
theorem test_modexp_one : afterWord 0x00321410 4 (start [(1, 5), (3, 1), (4, 99)] [] [] 0) = some (0, 0) := by
  decide +kernel
/-- V-INV-13: an even modulus. -/
theorem test_modinv : afterWord 0x00201311 3 (start [(1, 5), (2, P127 - 1)] [] [] 0) =
    some (0x66666666666666666666666666666665, 0) := by decide +kernel
/-- V-INV-4: no inverse. -/
theorem test_modinv_none : afterWord 0x00201311 3 (start [(1, 6), (2, 9), (3, 99)] [] [] 0) = some (99, 1) := by
  decide +kernel
/-- V-LAG-3. -/
theorem test_lagcoef : afterWord 0x03101420 4 (start [(1, P127)] [1, 3, 5] [] 3) =
    some (0x5FFFFFFFFFFFFFFFFFFFFFFFFFFFFFFE, 0) := by decide +kernel
/-- V-LAG-22: COUNT < t is tested before m = 0. -/
theorem test_lagcoef_priority : afterWord 0x03100420 4 (start [(4, 99)] [1, 3, 5] [] 2) = some (99, 2) := by
  decide +kernel
/-- V-REC-2: the scenario of the source. -/
theorem test_lagrecon : afterWord 0x03100421 4 (start [(1, P127)] [1, 3, 5] [60, 162, 352] 3) = some (42, 0) := by
  decide +kernel
/-- V-REC-7: a duplicate in the last slots. -/
theorem test_lagrecon_duplicate :
    afterWord 0x03100421 4 (start [(1, P127), (4, 99)] [1, 3, 3] [60, 162, 162] 3) = some (99, 1) := by decide +kernel
/-- V-CLR-1. -/
theorem test_clear : afterEvent (cmdWrite 0xF0#32) { start [(3, 42)] [1] [60] 3 with err := 1#2 } =
    some (.ok, State.reset) := by decide +kernel
/-- V-CLR-3: bit 8 set is an illegal word and clears nothing. -/
theorem test_clear_illegal : afterWord 0x000001F0 3 (start [(3, 42)] [] [] 0) = some (42, 3) := by decide +kernel

/-! ### The window -/

/-- V-BUS-2: a limb in the middle. -/
theorem test_bus_limb : afterEvent (.write 0x230 (.single 4) 0x7FFFFFFF#32) State.reset =
    some (.ok, State.reset.setReg 1 (BitVec.ofNat 256 (0x7FFFFFFF * 2 ^ 96))) := by decide +kernel
/-- V-BUS-4: one limb replaced, seven kept. -/
theorem test_bus_keeps : afterEvent (.write 0x23C (.single 4) 0#32) (start [(1, P127)] [] [] 0) =
    some (.ok, start [(1, 0x7FFFFFFFFFFFFFFFFFFFFFFF00000000)] [] [] 0) := by decide +kernel
/-- V-BUS-5. -/
theorem test_bus_slot : afterEvent (.write 0x41C (.single 4) 5#32) State.reset = some (.ok, start [] [5] [] 0) ∧
    afterEvent (.write 0x43C (.single 4) 352#32) State.reset = some (.ok, start [] [] [352] 0) := by decide +kernel
/-- V-BUS-6: the last word of the window. -/
theorem test_bus_last : afterEvent (.write 0x7FC (.single 4) 1#32) State.reset =
    some (.ok, start [] [] (List.replicate 15 0 ++ [1]) 0) := by decide +kernel
/-- V-BUS-8: COUNT saturates. -/
theorem test_bus_count : afterEvent (.write 0x008 (.single 4) 0xFFFFFFFF#32) State.reset =
    some (.ok, start [] [] [] 16) := by decide +kernel
/-- V-BUS-9, V-BUS-10: malformed accesses. -/
theorem test_bus_error : State.reset.memRead 0x00C (.single 4) = .busError ∧
    State.reset.memRead 0x800 (.single 4) = .busError ∧ State.reset.memRead 0x202 (.single 4) = .busError ∧
    State.reset.memRead 0x200 (.single 1) = .busError ∧ State.reset.memRead 0x200 (.single 8) = .busError ∧
    afterEvent (.write 0x1FC (.single 4) 1#32) State.reset = some (.busError, State.reset) := by decide +kernel
/-- V-BUS-11: a 2-byte CMD write starts nothing. -/
theorem test_bus_cmd_size : afterEvent (.write 0x000 (.single 2) 0xF0#32) (start [(3, 42)] [] [] 0) =
    some (.busError, start [(3, 42)] [] [] 0) := by decide +kernel
/-- V-ST-3: a write of STATUS is ignored. -/
theorem test_status_write : afterEvent (.write 0x004 (.single 4) 0#32) { State.reset with err := 1#2 } =
    some (.ok, { State.reset with err := 1#2 }) := by decide +kernel
/-- The script's `WRX 1, 3` begins at 0x440 and ends with limb 7 = 3 at 0x45C (95_test_vectors.md P5). -/
theorem test_script : (scriptWRX 1 3#256).head? = some (.write 0x440 (.single 4) 0#32) ∧
    (scriptWRX 1 3#256).getLast? = some (.write 0x45C (.single 4) 3#32) ∧
    scriptWRCOUNT 2#32 = [.write 0x008 (.single 4) 2#32] ∧
    scriptCommand (.lagrecon 4 3 1) = [.write 0x000 (.single 4) 0x03100421#32] := by decide +kernel

/-- The four host-script lines not seen in the test above, and the byte image: the first byte of a value is its most
significant (20_memory.md R54, 30_encoding.md R92). -/
theorem test_script_reads : (scriptWR 1 3#256).getLast? = some (.write 0x23C (.single 4) 3#32) ∧
    (scriptWRF 1 162#256).head? = some (.write 0x460 (.single 4) 0#32) ∧
    (scriptRD 4).head? = some (.read 0x280 (.single 4)) ∧ scriptRDSTATUS = [.read 0x004 (.single 4)] ∧
    wordByte (BitVec.ofNat 256 (0xAB * 2 ^ 248 + 0xCD)) 0 = 0xAB#8 ∧
    wordByte (BitVec.ofNat 256 (0xAB * 2 ^ 248 + 0xCD)) 31 = 0xCD#8 := by decide +kernel

/-! ### Witnesses: for every statement with hypotheses, a state and operands that meet them -/

/-- Modulus 7 in x3, 3 in x1, 1 in x2. -/
def seven : State := start [(1, 3), (2, 1), (3, 7)] [] [] 0

/-- MODEXP's operands: base in x1, exponent in x2, modulus in x3. -/
def power (a e m : Nat) : State := start [(1, a), (2, e), (3, m)] [] [] 0

/-- V-REC-1: modulus 7 in x1, shares of 3 + 2x + x^2. -/
def shares7 : State := start [(1, 7)] [1, 2, 3] [6, 4, 4] 3

/-- The coefficients of 3 + 2x + x^2. -/
def coeff7 (k : Nat) : Nat := [3, 2, 1].getD k 0

/-- A full table: modulus 17 in x1, indices 1 .. 16, values of 5 + x^15. -/
def shares17 : State :=
  start [(1, 17)] ((List.range 16).map (· + 1)) ((List.range 16).map fun n => (5 + (n + 1) ^ 15) % 17) 16

/-- The coefficients of 5 + x^15. -/
def coeff17 (k : Nat) : Nat := if k = 0 then 5 else if k = 15 then 1 else 0

/-- Index 1 twice, modulus 7 in x1. -/
def duplicates7 : State := start [(1, 7)] [1, 8, 3] [6, 4, 4] 3

theorem witness_DecodeInvertsEncode : (Instr.modred 15 15 15).wf = true ∧ (Instr.modadd 15 15 15 15).wf = true ∧
    (Instr.modsub 0 0 0 0).wf = true ∧ (Instr.modneg 15 15 15).wf = true ∧ (Instr.modmul 0 15 0 15).wf = true ∧
    (Instr.modexp 15 0 15 0).wf = true ∧ (Instr.modinv 0 0 0).wf = true ∧ (Instr.lagcoef 15 15 31 15).wf = true ∧
    (Instr.lagrecon 15 31 15).wf = true ∧ Instr.clear.wf = true := by decide

theorem witness_EncodeInvertsDecode : decode 0x00F0FF01#32 = .ok (.modred 15 15 15) ∧
    decode 0x1FF0FF20#32 = .ok (.lagcoef 15 15 31 15) ∧ decode 0x000000F0#32 = .ok .clear := by decide

/-- One word for each clause; the last is no command (V-ILL-5). -/
theorem witness_OpcodeMapDecodes :
    0x00F0FF01#32 &&& 0xFF0F00FF#32 = 0x00000001#32 ∧ 0x00FFFF02#32 &&& 0xFF0000FF#32 = 0x00000002#32 ∧
    0x00000003#32 &&& 0xFF0000FF#32 = 0x00000003#32 ∧ 0x00F0FF04#32 &&& 0xFF0F00FF#32 = 0x00000004#32 ∧
    0x00FFFF05#32 &&& 0xFF0000FF#32 = 0x00000005#32 ∧ 0x00FFFF10#32 &&& 0xFF0000FF#32 = 0x00000010#32 ∧
    0x00F0FF11#32 &&& 0xFF0F00FF#32 = 0x00000011#32 ∧ 0x1FF0FF20#32 &&& 0xE00F00FF#32 = 0x00000020#32 ∧
    0x1FF00F21#32 &&& 0xE00FF0FF#32 = 0x00000021#32 ∧ 0x000000F0#32 &&& 0xFFFFFFFF#32 = 0x000000F0#32 ∧
    (0x00211301#32 &&& 0xFF0F00FF#32 ≠ 0x00000001#32 ∧ 0x00211301#32 &&& 0xFF0000FF#32 ≠ 0x00000002#32 ∧
      0x00211301#32 &&& 0xFF0000FF#32 ≠ 0x00000003#32 ∧ 0x00211301#32 &&& 0xFF0F00FF#32 ≠ 0x00000004#32 ∧
      0x00211301#32 &&& 0xFF0000FF#32 ≠ 0x00000005#32 ∧ 0x00211301#32 &&& 0xFF0000FF#32 ≠ 0x00000010#32 ∧
      0x00211301#32 &&& 0xFF0F00FF#32 ≠ 0x00000011#32 ∧ 0x00211301#32 &&& 0xE00F00FF#32 ≠ 0x00000020#32 ∧
      0x00211301#32 &&& 0xE00FF0FF#32 ≠ 0x00000021#32 ∧ 0x00211301#32 &&& 0xFFFFFFFF#32 ≠ 0x000000F0#32) := by decide

theorem witness_EncodingIsTheFieldSum : ((0 : Nat) < 16 ∧ (0 : Nat) < 32) ∧ (15 : Nat) < 16 ∧ (31 : Nat) < 32 := by
  decide

/-- A word that is the encoding of no command. -/
theorem witness_IllegalWordsRaiseIllegalCommand : ∀ i : Instr, i.wf = true → encode i ≠ 0x00211301#32 := by
  intro i h e
  have hrow : Sys2Proof.Laws.OwnRow.Statement i := by
    cases i
    · exact Sys2Proof.Laws.OwnRow.modred _ _ _
    · exact Sys2Proof.Laws.OwnRow.modadd _ _ _ _
    · exact Sys2Proof.Laws.OwnRow.modsub _ _ _ _
    · exact Sys2Proof.Laws.OwnRow.modneg _ _ _
    · exact Sys2Proof.Laws.OwnRow.modmul _ _ _ _
    · exact Sys2Proof.Laws.OwnRow.modexp _ _ _ _
    · exact Sys2Proof.Laws.OwnRow.modinv _ _ _
    · exact Sys2Proof.Laws.OwnRow.lagcoef _ _ _ _
    · exact Sys2Proof.Laws.OwnRow.lagrecon _ _ _
    · exact Sys2Proof.Laws.OwnRow.clear
  obtain ⟨r, hr, -, hm⟩ := hrow h
  rw [e] at hm
  revert r
  decide

/-- The other clauses: an opcode outside the ten; the ends of the range of t above NSLOT, with COUNT = 16. -/
theorem witness_IllegalWordsRaiseIllegalCommand_ranges :
    (0xFFFFFFFF#32).toNat % 256 ∉ [0x01, 0x02, 0x03, 0x04, 0x05, 0x10, 0x11, 0x20, 0x21, 0xF0] ∧
    (0 : Nat) < 16 ∧ (15 : Nat) < 16 ∧ 17 ≤ 17 ∧ 17 ≤ 31 ∧ 31 ≤ 31 ∧ (start [] [] [] 16).inv = true := by decide

theorem witness_StepRunsDecodedCommand : decode 0x00201301#32 = .ok (.modred 3 1 2) := by decide

/-- Both clauses of the five field commands and of MODEXP: a modulus that is 0, and one that is not. -/
theorem witness_modulus : State.reset.x[(3 : Reg)] = 0#256 ∧ seven.x[(3 : Reg)] ≠ 0#256 ∧
    (start [(3, M256)] [] [] 0).x[(3 : Reg)] ≠ 0#256 := by decide +kernel

theorem witness_FieldIdentities : seven.x[(3 : Reg)] ≠ 0#256 ∧ (5 : Reg) ≠ 3 ∧ (5 : Reg) ≠ 1 ∧
    seven.x[(2 : Reg)] = 1#256 ∧ (power 2 0 1).x[(3 : Reg)] ≠ 0#256 ∧ (power 2 0 1).x[(3 : Reg)] = 1#256 := by
  decide +kernel

theorem witness_ResultBelowModulus : (Instr.modmul 4 1 1 3).dest = some 4 ∧
    (Instr.modmul 4 1 1 3).sources.getLast? = some 3 ∧
    ∃ t, exec (.modmul 4 1 1 3) seven = .next t ∧ t.err = 0#2 := ⟨rfl, rfl, _, rfl, by decide +kernel⟩

/-- Clause by clause: exponent 0 and modulus not 1; modulus 1; a base congruent to 0 and an exponent not 0; a base
congruent to 1; exponent 1. -/
theorem witness_ModexpCorners :
    ((power 2 0 7).x[(3 : Reg)] ≠ 0#256 ∧ (power 2 0 7).x[(2 : Reg)] = 0#256 ∧ (power 2 0 7).x[(3 : Reg)] ≠ 1#256) ∧
    ((power 2 0 1).x[(3 : Reg)] ≠ 0#256 ∧ (power 2 0 1).x[(3 : Reg)] = 1#256) ∧
    ((power 14 3 7).x[(3 : Reg)] ≠ 0#256 ∧
      (power 14 3 7).x[(1 : Reg)].toNat % (power 14 3 7).x[(3 : Reg)].toNat = 0 ∧
      (power 14 3 7).x[(2 : Reg)] ≠ 0#256) ∧
    ((power 8 3 7).x[(3 : Reg)] ≠ 0#256 ∧ (power 8 3 7).x[(1 : Reg)].toNat % (power 8 3 7).x[(3 : Reg)].toNat = 1) ∧
    (power 10 1 7).x[(3 : Reg)] ≠ 0#256 ∧ (power 10 1 7).x[(2 : Reg)] = 1#256 := by decide +kernel

/-- The last clause: a prime modulus, a base not congruent to 0, exponent m - 1. -/
theorem witness_ModexpCorners_prime : (power 3 6 7).x[(3 : Reg)] ≠ 0#256 ∧ (power 3 6 7).x[(3 : Reg)].toNat.Prime ∧
    (power 3 6 7).x[(1 : Reg)].toNat % (power 3 6 7).x[(3 : Reg)].toNat ≠ 0 ∧
    (power 3 6 7).x[(2 : Reg)].toNat = (power 3 6 7).x[(3 : Reg)].toNat - 1 := by
  refine ⟨by decide +kernel, ?_, by decide +kernel, by decide +kernel⟩
  rw [show (power 3 6 7).x[(3 : Reg)].toNat = 7 from by decide +kernel]
  norm_num

/-- Modulus 0; no inverse; an inverse. -/
theorem witness_ModinvResult : State.reset.x[(2 : Reg)] = 0#256 ∧
    ((start [(1, 6), (2, 9)] [] [] 0).x[(2 : Reg)] ≠ 0#256 ∧
      Nat.gcd (start [(1, 6), (2, 9)] [] [] 0).x[(1 : Reg)].toNat (start [(1, 6), (2, 9)] [] [] 0).x[(2 : Reg)].toNat ≠ 1) ∧
    seven.x[(3 : Reg)] ≠ 0#256 ∧ Nat.gcd seven.x[(1 : Reg)].toNat seven.x[(3 : Reg)].toNat = 1 := by decide +kernel

theorem witness_ModinvLaws : seven.x[(3 : Reg)] ≠ 0#256 ∧ (5 : Reg) ≠ 3 ∧ (5 : Reg) ≠ 1 ∧
    Nat.gcd seven.x[(1 : Reg)].toNat seven.x[(3 : Reg)].toNat = 1 := by decide +kernel

/-- Modulus 1; modulus 7 with an operand congruent to 0, 1 and 6, and an operand not congruent to 0. -/
theorem witness_ModinvCorners : (start [(3, 1)] [] [] 0).x[(3 : Reg)] = 1#256 ∧ 1 < seven.x[(3 : Reg)].toNat ∧
    seven.x[(0 : Reg)].toNat % seven.x[(3 : Reg)].toNat = 0 ∧ seven.x[(2 : Reg)].toNat % seven.x[(3 : Reg)].toNat = 1 ∧
    (start [(1, 6), (3, 7)] [] [] 0).x[(1 : Reg)].toNat % (start [(1, 6), (3, 7)] [] [] 0).x[(3 : Reg)].toNat =
      (start [(1, 6), (3, 7)] [] [] 0).x[(3 : Reg)].toNat - 1 ∧
    seven.x[(1 : Reg)].toNat % seven.x[(3 : Reg)].toNat ≠ 0 := by decide +kernel

/-- The prime moduli of the witnesses: of MODINV's last row above, and of the Lagrange statements below. -/
theorem witness_prime : seven.x[(3 : Reg)].toNat.Prime ∧ shares7.x[(1 : Reg)].toNat.Prime ∧
    shares17.x[(1 : Reg)].toNat.Prime := by
  rw [show seven.x[(3 : Reg)].toNat = 7 from by decide +kernel,
    show shares7.x[(1 : Reg)].toNat = 7 from by decide +kernel,
    show shares17.x[(1 : Reg)].toNat = 17 from by decide +kernel]
  norm_num

/-- COUNT one below t; and a full table with the smallest t that can never be met. -/
theorem witness_InsufficientShares : (start [] [] [] 2).count.toNat < 3 ∧ shares17.inv = true ∧ 17 ≤ 17 ∧
    shares17.count.toNat = 16 := by decide +kernel

/-- t = 0 with COUNT = 0; modulus 0; i = t. -/
theorem witness_LagrangeOperandErrors : 0 ≤ State.reset.count.toNat ∧
    ((start [] [] [] 3).x[(1 : Reg)] = 0#256 ∧ 3 ≤ (start [] [] [] 3).count.toNat) ∧ 3 ≤ shares7.count.toNat := by
  decide +kernel

/-- Invertible denominators for the first and the last slot of a full table; and a duplicate. -/
theorem witness_LagcoefResult :
    (15 < 16 ∧ 16 < 32 ∧ 16 ≤ shares17.count.toNat ∧ shares17.x[(1 : Reg)] ≠ 0#256 ∧
      (∀ j < 16, j ≠ 0 → shares17.invertiblePair shares17.x[(1 : Reg)].toNat 0 j) ∧
      ∀ j < 16, j ≠ 15 → shares17.invertiblePair shares17.x[(1 : Reg)].toNat 15 j) ∧
    3 ≤ duplicates7.count.toNat ∧ duplicates7.x[(1 : Reg)] ≠ 0#256 ∧
      ∃ j < 3, j ≠ 0 ∧ ¬ duplicates7.invertiblePair duplicates7.x[(1 : Reg)].toNat 0 j := by
  simp only [State.invertiblePair]
  exact ⟨by decide +kernel, by decide +kernel, by decide +kernel, 1, by decide +kernel⟩

/-- The checks of both Lagrange commands: COUNT one below t; t = 0, modulus 0 and i = t with COUNT not below t. -/
theorem witness_Lagrange_checks : (shares7.count.toNat < 4 ∧ (3 : Nat) < 16 ∧ (4 : Nat) < 32) ∧
    0 ≤ shares7.count.toNat ∧ (3 ≤ (start [] [] [] 3).count.toNat ∧ (start [] [] [] 3).x[(1 : Reg)] = 0#256) ∧
    3 ≤ shares7.count.toNat ∧ 3 ≤ 3 := by decide +kernel

theorem witness_LagreconResult :
    (∀ i < 16, ∀ j < 16, j ≠ i → shares17.invertiblePair shares17.x[(1 : Reg)].toNat i j) ∧
    16 ≤ shares17.count.toNat ∧ shares17.x[(1 : Reg)] ≠ 0#256 ∧
    ∃ i < 3, ∃ j < 3, j ≠ i ∧ ¬ duplicates7.invertiblePair duplicates7.x[(1 : Reg)].toNat i j := by
  simp only [State.invertiblePair]
  exact ⟨by decide +kernel, by decide +kernel, by decide +kernel, 0, by decide, 1, by decide +kernel⟩

/-- V-REC-1: LAGRECON completes with 3. -/
theorem witness_LagreconSumsCoefficients :
    exec (.lagrecon 4 3 1) shares7 = .next { shares7 with x := shares7.x.set 4 3#256, err := 0#2 } := by
  rw [exec_eq_finish (rd := 4) rfl, show resultOf (.lagrecon 4 3 1) shares7 = .ok 3 from by decide +kernel]
  rfl

/-- Three shares, one share, and a full table (the moduli are prime by witness_prime). -/
theorem witness_LagreconRecoversSecret :
    (3 ≤ shares7.count.toNat ∧
      (∀ i < 3, ∀ j < 3, i ≠ j →
        shares7.slotX i % shares7.x[(1 : Reg)].toNat ≠ shares7.slotX j % shares7.x[(1 : Reg)].toNat) ∧
      ∀ i < 3, shares7.slotF i % shares7.x[(1 : Reg)].toNat =
        (∑ k ∈ Finset.range 3, coeff7 k * shares7.slotX i ^ k) % shares7.x[(1 : Reg)].toNat) ∧
    (1 ≤ shares7.count.toNat ∧ ∀ i < 1, shares7.slotF i % shares7.x[(1 : Reg)].toNat =
        (∑ k ∈ Finset.range 1, 6 * shares7.slotX i ^ k) % shares7.x[(1 : Reg)].toNat) ∧
    16 ≤ shares17.count.toNat ∧
      (∀ i < 16, ∀ j < 16, i ≠ j →
        shares17.slotX i % shares17.x[(1 : Reg)].toNat ≠ shares17.slotX j % shares17.x[(1 : Reg)].toNat) ∧
      ∀ i < 16, shares17.slotF i % shares17.x[(1 : Reg)].toNat =
        (∑ k ∈ Finset.range 16, coeff17 k * shares17.slotX i ^ k) % shares17.x[(1 : Reg)].toNat :=
  ⟨by decide +kernel, by decide +kernel, by decide +kernel, by decide +kernel, by decide +kernel⟩

/-- The same table, for the sum of the coefficients. -/
theorem witness_CoefficientsSumToOne : 1 ≤ 16 ∧ 16 ≤ shares17.count.toNat ∧
    ∀ i < 16, ∀ j < 16, i ≠ j →
      shares17.slotX i % shares17.x[(1 : Reg)].toNat ≠ shares17.slotX j % shares17.x[(1 : Reg)].toNat := by
  decide +kernel

/-- The first two slots of V-REC-1 swapped. -/
theorem witness_ShareOrderDoesNotMatter :
    (∀ n, Equiv.swap 0 1 n < 3 ↔ n < 3) ∧ (start [(1, 7)] [2, 1, 3] [4, 6, 4] 3).x = shares7.x ∧
    (start [(1, 7)] [2, 1, 3] [4, 6, 4] 3).count = shares7.count ∧
    ∀ n < 3, (start [(1, 7)] [2, 1, 3] [4, 6, 4] 3).slotX n = shares7.slotX (Equiv.swap 0 1 n) ∧
      (start [(1, 7)] [2, 1, 3] [4, 6, 4] 3).slotF n = shares7.slotF (Equiv.swap 0 1 n) := by
  refine ⟨fun n => ?_, by decide +kernel, by decide +kernel, by decide +kernel⟩
  rw [Equiv.swap_apply_def]
  split_ifs <;> omega

theorem witness_DuplicateIndexFails : 3 ≤ duplicates7.count.toNat ∧ 1 < duplicates7.x[(1 : Reg)].toNat ∧
    duplicates7.slotX 0 % duplicates7.x[(1 : Reg)].toNat = duplicates7.slotX 1 % duplicates7.x[(1 : Reg)].toNat := by
  decide +kernel

/-- An index congruent to 0 in slot 0, modulus 7 in x1. -/
def zeroIndex7 : State := start [(1, 7)] [7, 3, 5] [1, 2, 3] 3

/-- Modulus 1; one slot with a modulus not 1; another index congruent to 0 (slot 0, for slot 1); the own index congruent
to 0 (slot 0), for LAGCOEF and for LAGRECON. -/
theorem witness_LagrangeCorners :
    (3 ≤ (start [(1, 1)] [5, 5, 5] [] 3).count.toNat ∧ (start [(1, 1)] [5, 5, 5] [] 3).x[(1 : Reg)] ≠ 0#256 ∧
      (start [(1, 1)] [5, 5, 5] [] 3).x[(1 : Reg)] = 1#256) ∧
    (1 ≤ shares7.count.toNat ∧ shares7.x[(1 : Reg)] ≠ 0#256 ∧ shares7.x[(1 : Reg)] ≠ 1#256) ∧
    (3 ≤ zeroIndex7.count.toNat ∧ zeroIndex7.x[(1 : Reg)] ≠ 0#256 ∧
      zeroIndex7.slotX 0 % zeroIndex7.x[(1 : Reg)].toNat = 0) ∧
    ∀ i < 3, ∀ j < 3, j ≠ i → zeroIndex7.invertiblePair zeroIndex7.x[(1 : Reg)].toNat i j := by
  simp only [State.invertiblePair]
  decide +kernel

/-- V-CLR-3's word: opcode 0xF0 with a 1 above it. -/
theorem witness_ClearZeroises : (0x000001F0#32).toNat % 256 = 0xF0 ∧ 0x000001F0#32 ≠ 0x000000F0#32 := by decide

/-- The first and the last byte of a value and their limbs. -/
theorem witness_LimbsAreBigEndian : (0 : Limb).val = (0 : Fin 32).val / 4 ∧ (7 : Limb).val = (31 : Fin 32).val / 4 := by
  decide

theorem witness_CLEAR_next : ∃ t, exec .clear shares7 = .next t := ⟨_, rfl⟩

/-- A word that is no command; COUNT < t; the causes of DomainError: modulus 0, no inverse, t = 0, i = t, and a
denominator factor of the named slot and of two used slots; no cause. -/
theorem witness_ErrorCodesAndPriority :
    (∀ i, decode 0x00000000#32 ≠ .ok i) ∧ insufficientCause (.lagcoef 4 0 4 1) shares7 ∧
    insufficientCause (.lagrecon 4 4 1) shares7 ∧ domainCause (.modred 3 1 2) State.reset ∧
    domainCause (.modinv 3 1 2) (start [(1, 6), (2, 9)] [] [] 0) ∧ domainCause (.lagrecon 4 0 1) shares7 ∧
    domainCause (.lagcoef 4 3 3 1) shares7 ∧
    (∃ j < 3, j ≠ 0 ∧ ¬ duplicates7.invertiblePair duplicates7.x[(1 : Reg)].toNat 0 j) ∧
    ¬ domainCause (.modred 4 1 3) seven ∧ ¬ insufficientCause (.modred 4 1 3) seven := by
  refine ⟨fun i h => ?_, ?_, ?_, ?_, .inr ?_, .inl rfl, .inr (.inr (.inl (Nat.le_refl 3))), ⟨1, by decide, by decide, ?_⟩,
    ?_, id⟩
  · rw [show decode 0x00000000#32 = .error .unassignedOpcode from by decide] at h
    cases h
  · show shares7.count.toNat < 4
    decide +kernel
  · show shares7.count.toNat < 4
    decide +kernel
  · show State.reset.x[(2 : Reg)] = 0#256
    decide +kernel
  · decide +kernel
  · unfold State.invertiblePair
    decide +kernel
  · show ¬ seven.x[(3 : Reg)] = 0#256
    decide +kernel

/-- MODRED with the modulus register of the reset state fails, in a step and in a command (V-RED-9). -/
theorem witness_ErrorChangesOnlyStatus :
    ∃ t, step { State.reset with host := [.write 0x000 (.single 4) 0x00F00F01#32] } = .next t ∧ t.err ≠ 0#2 :=
  ⟨_, rfl, by decide +kernel⟩

theorem witness_FailureIsNotTransient : ∃ t, runCommand 0x00F00F01#32 State.reset = .next t ∧ t.err ≠ 0#2 :=
  ⟨_, rfl, by decide +kernel⟩

/-- Two states that differ in a register no source names, in a slot that is not used and, for LAGCOEF, in F. -/
theorem witness_OutcomeDependsOnSourcesOnly :
    (∀ r ∈ (Instr.modred 4 1 3).sources, seven.x[r] = (start [(1, 3), (3, 7), (9, 5)] [4] [5] 6).x[r]) ∧
    (∀ r ∈ (Instr.lagcoef 4 0 2 1).sources, shares7.x[r] = (start [(1, 7)] [1, 2, 9] [] 3).x[r]) ∧
    shares7.count = (start [(1, 7)] [1, 2, 9] [] 3).count ∧
    (∀ n < 2, shares7.slotX n = (start [(1, 7)] [1, 2, 9] [] 3).slotX n) ∧
    shares7.count = (start [(1, 7)] [1, 2, 9] [6, 4] 3).count ∧
    ∀ n < 2, shares7.slotX n = (start [(1, 7)] [1, 2, 9] [6, 4] 3).slotX n ∧
      shares7.slotF n = (start [(1, 7)] [1, 2, 9] [6, 4] 3).slotF n := by decide +kernel

/-- A destination, another register, and the offsets next to its 32 bytes on both sides. -/
theorem witness_CommandFrame : (Instr.modred 3 1 2).dest = some 3 ∧ (4 : Reg) ≠ 3 ∧
    (0x25C ≠ 0x004 ∧ 0x25C < 0x200 + 32 * (3 : Reg).val) ∧ 0x280 ≠ 0x004 ∧ 0x200 + 32 * (3 : Reg).val + 32 ≤ 0x280 := by
  decide

/-- Accepted at both ends of the two ranges; not accepted beside each end, at an odd offset and at other sizes. -/
theorem witness_BusErrorExactly :
    (∀ off ∈ [0x000, 0x008, 0x200, 0x7FC], off % 4 = 0 ∧ (off < 0x00C ∨ (0x200 ≤ off ∧ off < 0x800))) ∧
    (∀ off ∈ [0x00C, 0x1FC, 0x800, 0x202], ¬ (off % 4 = 0 ∧ (off < 0x00C ∨ (0x200 ≤ off ∧ off < 0x800)))) ∧
    AccessSize.single 2 ≠ .single 4 ∧ AccessSize.single 8 ≠ .single 4 ∧ AccessSize.burst 1 ≠ .single 4 := by decide

/-- The ends of both windows and of a slot's two fields. -/
theorem witness_OffsetReachesItsLimb :
    (∀ off ∈ [0x200, 0x3FC], off % 4 = 0 ∧ 0x200 ≤ off ∧ off < 0x400) ∧
    (∀ off ∈ [0x400, 0x41C], off % 4 = 0 ∧ 0x400 ≤ off ∧ off < 0x800 ∧ (off - 0x400) % 64 < 32) ∧
    ∀ off ∈ [0x420, 0x7FC], off % 4 = 0 ∧ 0x400 ≤ off ∧ off < 0x800 ∧ 32 ≤ (off - 0x400) % 64 := by decide

theorem witness_ReadAfterWrite : (0x7FC % 4 = 0 ∧ 0x200 ≤ 0x7FC ∧ 0x7FC < 0x800 ∧ 0x7F8 ≠ 0x7FC) ∧
    ∃ t, step { State.reset with host := [.write 0x7FC (.single 4) 1#32] } = .next t := ⟨by decide, _, rfl⟩

/-- The script's own order, and the reverse. -/
theorem witness_EightLimbWritesInAnyOrder :
    (List.finRange 8).Perm (List.finRange 8) ∧ (List.finRange 8).reverse.Perm (List.finRange 8) :=
  ⟨List.Perm.refl _, List.reverse_perm _⟩

/-- A read of CMD, a write of STATUS and a CMD write of another size. -/
theorem witness_OnlyCommandsWriteStatus :
    ∀ e ∈ [HostEvent.read 0x000 (.single 4), .write 0x004 (.single 4) 0#32, .write 0x000 (.single 2) 0xF0#32],
      e ≠ .reset ∧ (∀ c, e ≠ .write 0x000 (.single 4) c) ∧
        ∃ t, step { State.reset with host := [e] } = .next t := by
  intro e he
  simp only [List.mem_cons, List.not_mem_nil, or_false] at he
  rcases he with rfl | rfl | rfl <;> exact ⟨by simp, by simp, _, rfl⟩

theorem witness_IdleDoesNothing : State.reset.host = [] := rfl

/-- The write that tries to lift COUNT above 16, from a full table. -/
theorem witness_CountInvariantKept : (start [] [] [] 16).inv = true ∧
    ∃ t, step { start [] [] [] 16 with host := [.write 0x008 (.single 4) 17#32] } = .next t := ⟨by decide +kernel, _, rfl⟩

end Sys2Proof.Tests.Slice0
end

section
/-!
PROOFS. The family of 00_scope.md: what the machine does when the host asks nothing of it.
-/

namespace Sys2Proof.Machine

/-- Settles O49: the idle case of what a step can do, since only a host event starts anything (00_scope.md R6). -/
theorem idleDoesNothing : Obligations.IdleDoesNothing := by
  intro s hIdle
  exact step_idle hIdle

end Sys2Proof.Machine
end

section
/-!
PROOFS. The family of 10_state.md: COUNT's bound, results below their modulus, what a command and what any other event
leave unchanged, and the reset values.
-/

namespace Sys2Proof.Machine

/-! ### COUNT -/

theorem State.inv_iff (s : State) : s.inv = true ↔ s.count.toNat ≤ 16 := decide_eq_true_iff

/-- A command word leaves COUNT as it was, or 0 (10_state.md R27). -/
theorem runCommand_count {c : BusWord} {s t : State} (h : runCommand c s = .next t) :
    t.count = s.count ∨ t.count = 0#5 := by
  rcases runCommand_cases c s with ⟨-, h'⟩ | ⟨i, -, h'⟩
  · rw [h'] at h
    cases h
    exact .inl rfl
  · exact exec_count (h' ▸ h)

theorem runCommand_count_le {c : BusWord} {s t : State} (h : runCommand c s = .next t) (hs : s.count.toNat ≤ 16) :
    t.count.toNat ≤ 16 := by
  rcases runCommand_count h with h' | h' <;> rw [h']
  · exact hs
  · decide

theorem memWrite_count_le {off : Nat} {size : AccessSize} {v : BusWord} {s t : State}
    (h : memWrite off size v s = .next t) (hs : s.count.toNat ≤ 16) : t.count.toNat ≤ 16 := by
  rcases memWrite_cases off size v s with ⟨-, h'⟩ | ⟨-, u, hu, h'⟩ | ⟨l, -, -, h'⟩ <;> rw [h'] at h <;> cases h
  · exact hs
  · exact runCommand_count_le (t := u) hu hs
  · exact s.writeLoc_count_le v l hs

theorem transact_count_le {e : HostEvent} {s t : State} (h : transact e s = .next t) (hs : s.count.toNat ≤ 16) :
    t.count.toNat ≤ 16 := by
  rcases transact_cases e s with ⟨_, _, -, h'⟩ | ⟨_, _, _, -, h'⟩ | ⟨-, h'⟩ <;> rw [h'] at h
  · cases h
    exact hs
  · exact memWrite_count_le h hs
  · cases h
    simp

/-- A step with an event to come takes it off the list and answers it (00_scope.md R8). -/
theorem step_of_host_eq_cons {s : State} {e : HostEvent} {rest : List HostEvent} (h : s.host = e :: rest) :
    step s = transact e { s with host := rest } := by
  simp only [step, serveHost, h]

/-- Settles O52: no event lifts COUNT, since a storage write of it saturates and a command keeps or zeroes it. -/
theorem countInvariantKept : Obligations.CountInvariantKept := by
  intro s t hs h
  rw [State.inv_iff] at hs ⊢
  cases hh : s.host with
  | nil =>
    rw [step_idle hh] at h
    cases h
    exact hs
  | cons e rest =>
    rw [step_of_host_eq_cons hh] at h
    exact transact_count_le h hs

/-- Settles O51: COUNT is 0 at reset (10_state.md R36). -/
theorem countInvariantAtReset : Obligations.CountInvariantAtReset :=
  State.reset.inv_iff.mpr (Nat.zero_le 16)

/-! ### What a command writes and what it leaves -/

/-- Settles O14: code 0 rules the error out, and a result is below the modulus register's value, so writing it truncates
nothing. -/
theorem resultBelowModulus : Obligations.ResultBelowModulus := by
  intro i s t rd rm hd hm h herr
  rw [exec_eq_finish hd] at h
  cases h
  cases hr : resultOf i s with
  | error e =>
    rw [hr] at herr
    exact absurd herr e.code_ne_zero
  | ok v =>
    have hv : v < s.regVal rm := resultOf_lt hm hr
    have hw : ((s.finish rd (.ok v)).x[rd]).toNat = v := by
      simpa using Nat.mod_eq_of_lt (hv.trans (s.regVal_lt rm))
    rw [hw]
    exact hv

/-- Finishing a command writes no register but the destination (10_state.md R21). -/
theorem State.finish_x_ne (s : State) {n rd : Reg} (h : n ≠ rd) (r : Except Err Nat) :
    (s.finish rd r).x[n] = s.x[n] := by
  cases r with
  | error e => rfl
  | ok v =>
    have hne : rd.val ≠ n.val := fun e => h (Fin.ext e.symm)
    simp [Vector.getElem_set_ne _ _ hne]

/-- Finishing a command changes no mapped word but STATUS and the destination's limbs. -/
theorem State.readLoc_finish (s : State) {rd : Reg} {l : Loc} (hstatus : l ≠ .status) (hreg : ∀ k, l ≠ .reg rd k)
    (r : Except Err Nat) : (s.finish rd r).readLoc l = s.readLoc l := by
  cases l with
  | cmd => rfl
  | status => exact absurd rfl hstatus
  | count => simp [State.readLoc]
  | reg n k =>
    have hn : n ≠ rd := fun e => hreg k (e ▸ rfl)
    simp only [State.readLoc, s.finish_x_ne hn]
  | slotX n k => simp [State.readLoc]
  | slotF n k => simp [State.readLoc]

/-- A read outside STATUS and the destination's 32 bytes returns what it returned before the command finished. -/
theorem State.memRead_finish (s : State) {rd : Reg} {off : Nat} (hstatus : off ≠ 4)
    (hoff : off < 512 + 32 * rd.val ∨ 512 + 32 * rd.val + 32 ≤ off) (size : AccessSize) (r : Except Err Nat) :
    (s.finish rd r).memRead off size = s.memRead off size := by
  unfold State.memRead
  cases h : locate off size with
  | none => rfl
  | some l =>
    obtain ⟨-, rfl⟩ := locate_eq_some h
    have hl : l ≠ .status := by
      rintro rfl
      exact hstatus rfl
    have hr : ∀ k, l ≠ .reg rd k := by
      rintro k rfl
      rw [Loc.offset_reg] at hoff
      omega
    simp only [s.readLoc_finish hl hr]

/-- Settles O39: a command with a destination only finishes with its result. -/
theorem commandFrame : Obligations.CommandFrame := by
  intro i s rd hd
  exact ⟨_, exec_eq_finish hd s, s.finish_tX rd _, s.finish_tF rd _, s.finish_count rd _, s.finish_host rd _,
    s.finish_response rd _, fun _ hn => s.finish_x_ne hn _,
    fun _ size hstatus hoff => s.memRead_finish hstatus hoff size _⟩

/-! ### STATUS.ERR -/

/-- A write that is not a 32-bit write of CMD keeps STATUS.ERR (10_state.md R29). -/
theorem memWrite_err {off : Nat} {size : AccessSize} {v : BusWord} {s t : State} (hcmd : ¬ (off = 0 ∧ size = .single 4))
    (h : memWrite off size v s = .next t) : t.err = s.err := by
  rcases memWrite_cases off size v s with ⟨-, h'⟩ | ⟨hl, -⟩ | ⟨l, -, -, h'⟩
  · rw [h'] at h
    cases h
    rfl
  · obtain ⟨hsize, hoff⟩ := locate_eq_some hl
    exact absurd ⟨hoff, hsize⟩ hcmd
  · rw [h'] at h
    cases h
    exact s.writeLoc_err v l

/-- Settles O47: a read changes nothing, and of the writes only one of CMD runs a command. -/
theorem onlyCommandsWriteStatus : Obligations.OnlyCommandsWriteStatus := by
  intro s t e rest hreset hcmd h
  rw [step_event] at h
  rcases transact_cases e { s with host := rest } with ⟨_, _, -, h'⟩ | ⟨off, size, v, rfl, h'⟩ | ⟨he, -⟩
  · rw [h'] at h
    cases h
    rfl
  · have hne : ¬ (off = 0 ∧ size = .single 4) := by
      rintro ⟨rfl, rfl⟩
      exact hcmd v rfl
    exact memWrite_err (s := { s with host := rest }) hne (h' ▸ h)
  · exact absurd he hreset

/-- No command reads STATUS.ERR as a source (10_state.md R30). -/
theorem resultOf_setErr (i : Instr) (s : State) (e : BitVec 2) : resultOf i (s.setErr e) = resultOf i s := by
  cases i <;> rfl

/-- Finishing overwrites the code before it, whether with 0 or with an error's code. -/
theorem State.finish_setErr (s : State) (e : BitVec 2) (rd : Reg) (r : Except Err Nat) :
    (s.setErr e).finish rd r = s.finish rd r := by
  cases r <;> rfl

theorem exec_setErr (i : Instr) (s : State) (e : BitVec 2) : exec i (s.setErr e) = exec i s := by
  cases hd : i.dest with
  | none =>
    obtain rfl := eq_clear_of_dest hd
    rfl
  | some rd => rw [exec_eq_finish hd, exec_eq_finish hd, resultOf_setErr, State.finish_setErr]

/-- Settles O36: an illegal word's code and a command's both overwrite the one before. -/
theorem statusIsOverwritten : Obligations.StatusIsOverwritten := by
  intro s c e
  change runCommand c (s.setErr e) = runCommand c s
  unfold runCommand
  cases decode c with
  | error _ => rfl
  | ok i => exact exec_setErr i s e

/-! ### Reset -/

/-- Settles O32: reset and CLEAR write the same zeros (10_state.md R36). -/
theorem resetValues : Obligations.ResetValues := by
  refine ⟨?_, ?_, rfl, rfl, ?_, ?_, ?_⟩
  · exact fun n => Vector.getElem_replicate n.isLt
  · exact fun n => ⟨Vector.getElem_replicate n.isLt, Vector.getElem_replicate n.isLt⟩
  · exact State.reset.memRead_offset .status
  · exact State.reset.memRead_offset .cmd
  · intro s t h
    rw [exec_clear] at h
    cases h
    exact ⟨rfl, rfl, rfl, rfl, rfl⟩

end Sys2Proof.Machine
end

section
/-!
PROOFS. The family of 20_memory.md: reads and writes of the window, the accesses it refuses, limb order, and the order
in which events are taken.
-/

namespace Sys2Proof.Machine

/-! ### A transaction of a mapped word, as a step -/

/-- A read of a mapped word answers its data (20_memory.md R56). -/
theorem step_read_loc (s : State) (l : Loc) (rest : List HostEvent) :
    step { s with host := .read l.offset (.single 4) :: rest } =
      .next { s with host := rest, response := some (.okData (s.readLoc l)) } := by
  rw [step_read, State.memRead_offset]

/-- `step_write`, with the fields a storage write never touches set last. -/
theorem step_write_loc (s : State) {l : Loc} (hl : l ≠ .cmd) (v : BusWord) (rest : List HostEvent) :
    step { s with host := .write l.offset (.single 4) v :: rest } =
      .next { s.writeLoc v l with host := rest, response := some .ok } := by
  rw [step_write s hl]
  cases l <;> rfl

/-- A word that decodes runs as its command (30_encoding.md R88). -/
theorem runCommand_of_decode {c : BusWord} {i : Instr} (h : decode c = .ok i) (s : State) :
    runCommand c s = exec i s := by
  unfold runCommand
  rw [h]

/-- A command word cut to its 32 bits is itself. -/
theorem State.withFetchWord_toNat (s : State) (c : BusWord) :
    s.withFetchWord 32 c.toNat = { s with host := cmdWrite c :: s.host } := by
  have hc : BitVec.ofNat 32 (c.toNat % 2 ^ 32) = c := by
    rw [Nat.mod_eq_of_lt c.isLt, BitVec.ofNat_toNat, BitVec.setWidth_eq]
  rw [State.withFetchWord, hc]

/-- Settles O7: a CMD write runs its word, the word runs as the command it decodes to, and every command answers. -/
theorem stepRunsDecodedCommand : Obligations.StepRunsDecodedCommand := by
  intro s c i rest hdec
  refine ⟨?_, s.withFetchWord_toNat c⟩
  obtain ⟨t, ht⟩ := exec_next i { s with host := rest }
  have hstep := step_cmd s c rest
  rw [runCommand_of_decode hdec, ht] at hstep
  rw [ht]
  exact hstep

/-- Settles O40: each row of R56 is a read of a mapped word. -/
theorem windowReads : Obligations.WindowReads := by
  intro s rest n k
  exact ⟨step_read_loc s .cmd rest, step_read_loc s .status rest, step_read_loc s .count rest,
    step_read_loc s (.reg n k) rest, step_read_loc s (.slotX n k) rest, step_read_loc s (.slotF n k) rest⟩

/-- Settles O41: a CMD write runs its word, and every other row of R57 is a storage write of a mapped word. -/
theorem windowWrites : Obligations.WindowWrites := by
  intro s rest v n k
  refine ⟨?_, step_write_loc s (l := .status) nofun v rest, ?_, ?_, ?_, ?_⟩
  · obtain ⟨t, ht⟩ := runCommand_next v { s with host := rest }
    have hstep := step_cmd s v rest
    rw [ht] at hstep ⊢
    exact hstep
  · exact ⟨_, saturateCount_toNat v, step_write_loc s (l := .count) nofun v rest⟩
  · exact ⟨_, setLimb_toNat s.x[n] k v, step_write_loc s (l := .reg n k) nofun v rest⟩
  · exact ⟨_, setLimb_toNat s.tX[n] k v, step_write_loc s (l := .slotX n k) nofun v rest⟩
  · exact ⟨_, setLimb_toNat s.tF[n] k v, step_write_loc s (l := .slotF n k) nofun v rest⟩

/-! ### Which accesses are accepted -/

theorem State.memRead_of_none {off : Nat} {size : AccessSize} (h : locate off size = none) (s : State) :
    s.memRead off size = .busError := by
  unfold State.memRead
  rw [h]

/-- Every write the window accepts is answered OK, whatever a command it starts ends in (20_memory.md R58, R67). -/
theorem memWrite_response_of_some {off : Nat} {size : AccessSize} {l : Loc} (h : locate off size = some l) (v : BusWord)
    (s : State) : ∃ t, memWrite off size v s = .next t ∧ t.response = some .ok := by
  rcases memWrite_cases off size v s with ⟨hnone, -⟩ | ⟨-, t, -, ht⟩ | ⟨k, -, -, hk⟩
  · rw [h] at hnone
    cases hnone
  · exact ⟨_, ht, rfl⟩
  · exact ⟨_, hk, rfl⟩

/-- Settles O42: the accepted accesses are those `locate` maps. -/
theorem busErrorExactly : Obligations.BusErrorExactly := by
  intro s rest off size v accepted
  have hnone : locate off size = none ↔ ¬ accepted := locate_eq_none_iff off size
  refine ⟨fun hrefused => ?_, fun haccepted => ?_⟩
  · have hl := hnone.mpr hrefused
    refine ⟨?_, memWrite_none hl v { s with host := rest }⟩
    rw [step_read, State.memRead_of_none hl]
  · cases hl : locate off size with
    | none => exact absurd haccepted (hnone.mp hl)
    | some l =>
      refine ⟨⟨s.readLoc l, ?_⟩, memWrite_response_of_some hl v { s with host := rest }⟩
      obtain ⟨rfl, rfl⟩ := locate_eq_some hl
      exact step_read_loc s l rest

/-! ### Offset, limb and byte -/

/-- The inverse map of 20_memory.md R52. -/
theorem exists_offset_reg {off : Nat} (h4 : off % 4 = 0) (hlo : 0x200 ≤ off) (hhi : off < 0x400) :
    ∃ (n : Reg) (k : Limb), n.val = (off - 0x200) / 32 ∧ k.val = (off - 0x200) % 32 / 4 ∧
      off = (Loc.reg n k).offset := by
  refine ⟨⟨(off - 0x200) / 32, by omega⟩, ⟨(off - 0x200) % 32 / 4, by omega⟩, rfl, rfl, ?_⟩
  simp only [Loc.offset_reg]
  omega

/-- The inverse map of 20_memory.md R53. -/
theorem exists_offset_slot {off : Nat} (h4 : off % 4 = 0) (hlo : 0x400 ≤ off) (hhi : off < 0x800) :
    ∃ (n : Slot) (k : Limb), n.val = (off - 0x400) / 64 ∧ k.val = (off - 0x400) % 32 / 4 ∧
      ((off - 0x400) % 64 < 32 → off = (Loc.slotX n k).offset) ∧
      (32 ≤ (off - 0x400) % 64 → off = (Loc.slotF n k).offset) := by
  refine ⟨⟨(off - 0x400) / 64, by omega⟩, ⟨(off - 0x400) % 32 / 4, by omega⟩, rfl, rfl, ?_, ?_⟩
  · intro hX
    simp only [Loc.offset_slotX]
    omega
  · intro hF
    simp only [Loc.offset_slotF]
    omega

/-- Settles O43: the inverse map gives the word whose offset it is, and a read there returns that word. -/
theorem offsetReachesItsLimb : Obligations.OffsetReachesItsLimb := by
  intro s off h4
  constructor
  · intro hlo hhi
    obtain ⟨n, k, hn, hk, hoff⟩ := exists_offset_reg h4 hlo hhi
    exact ⟨n, k, hn, hk, hoff ▸ s.memRead_offset (.reg n k)⟩
  · intro hlo hhi
    obtain ⟨n, k, hn, hk, hX, hF⟩ := exists_offset_slot h4 hlo hhi
    exact ⟨n, k, hn, hk, fun h => hX h ▸ s.memRead_offset (.slotX n k), fun h => hF h ▸ s.memRead_offset (.slotF n k)⟩

/-- A value is the sum of its limbs at their weights (20_memory.md R54). -/
theorem toNat_eq_sum_limbs (v : Word) :
    v.toNat = (limb v 0).toNat * 2 ^ 224 + (limb v 1).toNat * 2 ^ 192 + (limb v 2).toNat * 2 ^ 160 +
      (limb v 3).toNat * 2 ^ 128 + (limb v 4).toNat * 2 ^ 96 + (limb v 5).toNat * 2 ^ 64 + (limb v 6).toNat * 2 ^ 32 +
      (limb v 7).toNat := by
  have hv := v.isLt
  simp only [limb_toNat, limbShift]
  norm_num at hv ⊢
  omega

/-- Byte j of the byte image is a byte of limb j div 4 (20_memory.md R54). -/
theorem wordByte_eq_extract_limb (v : Word) {j : Fin 32} {k : Limb} (hk : k.val = j.val / 4) :
    wordByte v j = (limb v k).extractLsb' (24 - 8 * (j.val % 4)) 8 := by
  have hj := j.isLt
  have hshift (b : Nat) : limbShift k + (24 - 8 * (j.val % 4) + b) = 248 - 8 * j.val + b := by
    unfold limbShift
    omega
  ext b hb
  have hin : 24 - 8 * (j.val % 4) + b < 32 := by omega
  simp [wordByte, limb, hin, hshift]

/-- Settles O44: limbs and bytes are bit fields of the value, and a byte is a bit field of its limb. -/
theorem limbsAreBigEndian : Obligations.LimbsAreBigEndian := by
  intro v
  refine ⟨limb_toNat v, toNat_eq_sum_limbs v, fun j => ⟨?_, fun k hk => ?_⟩⟩
  · rw [wordByte, BitVec.extractLsb'_toNat, Nat.shiftRight_eq_div_pow]
  · rw [wordByte_eq_extract_limb v hk, BitVec.extractLsb'_toNat, Nat.shiftRight_eq_div_pow]

/-! ### The places that hold a W-bit value -/

/-- A place of the window that holds a W-bit value: a register, or a field of a table slot (20_memory.md R52, R53). -/
inductive Place where
  | reg (n : Reg)
  | slotX (n : Slot)
  | slotF (n : Slot)

/-- The mapped word that holds limb k of the place. -/
def Place.limbLoc : Place → Limb → Loc
  | .reg n => .reg n
  | .slotX n => .slotX n
  | .slotF n => .slotF n

/-- The value a place holds. -/
def State.valueAt (s : State) : Place → Word
  | .reg n => s.x[n]
  | .slotX n => s.tX[n]
  | .slotF n => s.tF[n]

/-- The state after a storage write that leaves v in the place, was answered OK, and has `rest` still to come. -/
def State.stored (s : State) (v : Word) (rest : List HostEvent) : Place → State
  | .reg n => { s with host := rest, response := some .ok, x := s.x.set n v }
  | .slotX n => { s with host := rest, response := some .ok, tX := s.tX.set n v }
  | .slotF n => { s with host := rest, response := some .ok, tF := s.tF.set n v }

theorem Place.limbLoc_ne_cmd (p : Place) (k : Limb) : p.limbLoc k ≠ .cmd := by
  cases p <;> exact nofun

@[simp] theorem State.valueAt_stored (s : State) (v : Word) (rest : List HostEvent) (p : Place) :
    (s.stored v rest p).valueAt p = v := by
  cases p <;> exact Vector.getElem_set_self _

@[simp] theorem State.stored_stored (s : State) (v w : Word) (h rest : List HostEvent) (p : Place) :
    (s.stored v h p).stored w rest p = s.stored w rest p := by
  cases p <;> simp [State.stored]

theorem State.readLoc_writeLoc_limbLoc (s : State) (v : BusWord) (p : Place) (k : Limb) :
    (s.writeLoc v (p.limbLoc k)).readLoc (p.limbLoc k) = v := by
  cases p with
  | reg n => exact s.readLoc_writeLoc_reg v n k
  | slotX n => exact s.readLoc_writeLoc_slotX v n k
  | slotF n => exact s.readLoc_writeLoc_slotF v n k

/-- A write of a limb replaces it in the value its place holds (20_memory.md R57). -/
theorem step_write_limb (s : State) (p : Place) (k : Limb) (w : BusWord) (rest : List HostEvent) :
    step { s with host := .write (p.limbLoc k).offset (.single 4) w :: rest } =
      .next (s.stored (setLimb (s.valueAt p) k w) rest p) := by
  rw [step_write_loc s (p.limbLoc_ne_cmd k)]
  cases p <;> rfl

/-- Every multiple of 4 in the two register files is the offset of a limb of some place. -/
theorem exists_offset_limbLoc {off : Nat} (h4 : off % 4 = 0) (hlo : 0x200 ≤ off) (hhi : off < 0x800) :
    ∃ (p : Place) (k : Limb), off = (p.limbLoc k).offset := by
  by_cases hreg : off < 0x400
  · obtain ⟨n, k, -, -, hoff⟩ := exists_offset_reg h4 hlo hreg
    exact ⟨.reg n, k, hoff⟩
  · obtain ⟨n, k, -, -, hX, hF⟩ := exists_offset_slot h4 (by omega) hhi
    by_cases hfield : (off - 0x400) % 64 < 32
    · exact ⟨.slotX n, k, hX hfield⟩
    · exact ⟨.slotF n, k, hF (by omega)⟩

/-! ### Read after write -/

/-- A read depends neither on the events to come nor on the last response. -/
theorem State.memRead_of_host_response (s : State) (host : List HostEvent) (response : Option Response) (off : Nat)
    (size : AccessSize) : { s with host := host, response := response }.memRead off size = s.memRead off size := by
  have hread (l : Loc) : { s with host := host, response := response }.readLoc l = s.readLoc l := by
    cases l <;> rfl
  simp only [State.memRead, hread]

/-- A storage write changes no read at another offset. -/
theorem State.memRead_writeLoc_ne (s : State) (v : BusWord) {l : Loc} {off : Nat} (h : off ≠ l.offset)
    (size : AccessSize) : (s.writeLoc v l).memRead off size = s.memRead off size := by
  unfold State.memRead
  cases hl : locate off size with
  | none => rfl
  | some k =>
    have hk : k ≠ l := by
      rintro rfl
      exact h (locate_eq_some hl).2
    simp only [s.readLoc_writeLoc_ne v hk]

/-- Settles O45: the written offset is a limb's, and a limb write changes that limb alone. -/
theorem readAfterWrite : Obligations.ReadAfterWrite := by
  intro s t rest off v h4 hlo hhi hstep
  obtain ⟨p, k, rfl⟩ := exists_offset_limbLoc h4 hlo hhi
  rw [step_write_loc s (p.limbLoc_ne_cmd k)] at hstep
  cases hstep
  constructor
  · rw [State.memRead_of_host_response, State.memRead_offset, State.readLoc_writeLoc_limbLoc]
  · intro o size ho
    rw [State.memRead_of_host_response, State.memRead_writeLoc_ne s v ho]

/-! ### Eight limb writes -/

/-- The value w after the limbs of v named in the list are written into it, in that order. -/
def writeLimbs (v : Word) (order : List Limb) (w : Word) : Word :=
  order.foldl (fun u k => setLimb u k (limb v k)) w

theorem writeLimbs_cons (v w : Word) (k : Limb) (ks : List Limb) :
    writeLimbs v (k :: ks) w = writeLimbs v ks (setLimb w k (limb v k)) := rfl

/-- A limb is v's once it is v's or still to be written: later writes of other limbs do not undo it. -/
theorem limb_writeLimbs (v : Word) (j : Limb) :
    ∀ (order : List Limb) (w : Word), j ∈ order ∨ limb w j = limb v j → limb (writeLimbs v order w) j = limb v j
  | [], w, h => by simpa [writeLimbs] using h
  | k :: ks, w, h => by
    rw [writeLimbs_cons]
    apply limb_writeLimbs v j ks
    by_cases hj : j = k
    · subst hj
      exact .inr (limb_setLimb_same w j _)
    · rw [limb_setLimb_ne w _ hj]
      simpa [hj] using h

/-- Writing every limb of v leaves v, whatever stood there. -/
theorem writeLimbs_eq_of_forall_mem {order : List Limb} (h : ∀ k, k ∈ order) (v w : Word) : writeLimbs v order w = v :=
  eq_of_limbs fun j => limb_writeLimbs v j order w (.inl (h j))

/-- The writes of the limbs of v to a place, in the order of the list. -/
def limbWrites (p : Place) (v : Word) (order : List Limb) : List HostEvent :=
  order.map fun k => .write (p.limbLoc k).offset (.single 4) (limb v k)

/-- A run over one or more limb writes does them one by one in the place's value. -/
theorem run_limbWrites (p : Place) (v : Word) (rest : List HostEvent) :
    ∀ (ks : List Limb) (k : Limb) (s : State),
      Sys2Proof.core.run (ks.length + 1) { s with host := limbWrites p v (k :: ks) ++ rest } =
        .next (s.stored (writeLimbs v (k :: ks) (s.valueAt p)) rest p)
  | [], k, s => core_run_succ (step_write_limb s p k (limb v k) rest) 0
  | k' :: ks, k, s => by
    have hstep := step_write_limb s p k (limb v k) (limbWrites p v (k' :: ks) ++ rest)
    have htail := run_limbWrites p v rest ks k' (s.stored (setLimb (s.valueAt p) k (limb v k)) [] p)
    rw [State.valueAt_stored, State.stored_stored, ← writeLimbs_cons] at htail
    refine (core_run_succ hstep _).trans (Eq.trans ?_ htail)
    cases p <;> rfl

/-- The writes of all eight limbs, in any order, store the value. -/
theorem run_limbWrites_of_perm (p : Place) (v : Word) {order : List Limb} (h : order.Perm (List.finRange 8)) (s : State)
    (rest : List HostEvent) :
    Sys2Proof.core.run 8 { s with host := limbWrites p v order ++ rest } = .next (s.stored v rest p) := by
  have hmem (k : Limb) : k ∈ order := h.mem_iff.mpr (List.mem_finRange k)
  have hlen : order.length = 8 := h.length_eq.trans List.length_finRange
  cases order with
  | nil => cases hlen
  | cons k ks =>
    rw [← hlen, List.length_cons, run_limbWrites, writeLimbs_eq_of_forall_mem hmem]

/-- Settles O46: each limb write replaces its own limb, so the order does not matter and nothing of the old value is
left. -/
theorem eightLimbWritesInAnyOrder : Obligations.EightLimbWritesInAnyOrder := by
  intro s rest n v order hperm
  exact ⟨run_limbWrites_of_perm (.reg n) v hperm s rest, run_limbWrites_of_perm (.slotX n) v hperm s rest,
    run_limbWrites_of_perm (.slotF n) v hperm s rest⟩

/-! ### The order of events -/

/-- Answering a write keeps the list of events to come. -/
theorem memWrite_host {off : Nat} {size : AccessSize} {v : BusWord} {s t : State}
    (h : memWrite off size v s = .next t) : t.host = s.host := by
  rcases memWrite_cases off size v s with ⟨-, h'⟩ | ⟨-, u, hu, h'⟩ | ⟨l, -, -, h'⟩ <;> rw [h'] at h <;> cases h
  · rfl
  · exact (runCommand_host hu).1
  · exact s.writeLoc_host v l

/-- Answering an event keeps the list of events to come. -/
theorem transact_host {e : HostEvent} {s t : State} (h : transact e s = .next t) : t.host = s.host := by
  rcases transact_cases e s with ⟨_, _, -, h'⟩ | ⟨_, _, _, -, h'⟩ | ⟨-, h'⟩ <;> rw [h'] at h
  · cases h
    rfl
  · exact memWrite_host h
  · cases h
    rfl

/-- Settles O48: a step takes the first event off the list, and answering it always ends and leaves the rest. -/
theorem eventsAreTakenInOrder : Obligations.EventsAreTakenInOrder := by
  intro s e rest
  obtain ⟨t, ht⟩ := transact_next e { s with host := rest }
  exact ⟨t, ht, transact_host ht⟩

end Sys2Proof.Machine
end

section
/-!
PROOFS. The family of 30_encoding.md: decoding and encoding invert each other, the opcode map row by row, the encodings
as sums, and words that are no command.
-/

namespace Sys2Proof

/-! ### Decoding an encoded command (30_encoding.md R87) -/

/-- An encoded command matches the row of its own opcode. -/
theorem encode_matches_own_row {i : Instr} (h : i.wf = true) :
    ∃ r ∈ opcodeMap, r.op = i.op ∧ r.matchesWord (encode i) = true :=
  match i with
  | .modred rd ra rm => Laws.OwnRow.modred rd ra rm h
  | .modadd rd ra rb rm => Laws.OwnRow.modadd rd ra rb rm h
  | .modsub rd ra rb rm => Laws.OwnRow.modsub rd ra rb rm h
  | .modneg rd ra rm => Laws.OwnRow.modneg rd ra rm h
  | .modmul rd ra rb rm => Laws.OwnRow.modmul rd ra rb rm h
  | .modexp rd ra rb rm => Laws.OwnRow.modexp rd ra rb rm h
  | .modinv rd ra rm => Laws.OwnRow.modinv rd ra rm h
  | .lagcoef rd i t rm => Laws.OwnRow.lagcoef rd i t rm h
  | .lagrecon rd t rm => Laws.OwnRow.lagrecon rd t rm h
  | .clear => Laws.OwnRow.clear h

theorem opcodeField_encode {i : Instr} (h : i.wf = true) : opcodeField (encode i) = i.op.code := by
  obtain ⟨r, hr, hop, hm⟩ := encode_matches_own_row h
  rw [opcode_of_matches hr hm, hop]

theorem Instr.wf_lagcoef {rd rm : Reg} {i t : Nat} : (Instr.lagcoef rd i t rm).wf = true ↔ i < 16 ∧ t < 32 := by
  simp only [Instr.wf, wfSlot, wfThreshold, Bool.and_eq_true, decide_eq_true_eq]

theorem Instr.wf_lagrecon {rd rm : Reg} {t : Nat} : (Instr.lagrecon rd t rm).wf = true ↔ t < 32 := decide_eq_true_iff

/-- The fields of an encoded command are its operands. -/
theorem withFields_encode {i : Instr} (h : i.wf = true) : i.op.withFields (encode i) = i := by
  cases i with
  | modred | modadd | modsub | modneg | modmul | modexp | modinv =>
    simp only [Instr.op, Op.withFields, encode, formatR_rd, formatR_ra, formatR_rb, formatR_rm]
  | lagcoef rd k t rm =>
    obtain ⟨hk, ht⟩ := Instr.wf_lagcoef.mp h
    simp only [Instr.op, Op.withFields, encode, formatL_rd, formatL_slot, formatL_threshold, formatL_rm, hk, ht]
  | lagrecon rd t rm =>
    have ht := Instr.wf_lagrecon.mp h
    simp only [Instr.op, Op.withFields, encode, formatL_rd, formatL_threshold, formatL_rm, Nat.ofNat_pos, ht]
  | clear => rfl

/-- Settles O1: the word matches its own row, and the decoder reads the operands back from their fields. -/
theorem decodeInvertsEncode : Obligations.DecodeInvertsEncode := by
  intro i h
  obtain ⟨r, hr, hop, hm⟩ := encode_matches_own_row h
  rw [decode_of_matches hr hm, hop, withFields_encode h]

/-- A number that is a command's encoding decodes to that command. -/
theorem decode_ofNat_of_toNat_encode {i : Instr} (hwf : i.wf = true) {n : Nat} (h : (encode i).toNat = n) :
    decode (BitVec.ofNat 32 n) = .ok i := by
  rw [← h, BitVec.ofNat_toNat, BitVec.setWidth_eq]
  exact decodeInvertsEncode i hwf

/-! ### Encoding a decoded word (R86, R87) -/

section Matches
variable {r : Row} {c : BusWord} (h : r.matchesWord c = true) (lo n : Nat)
  (hmask : r.mask.extractLsb' lo n = BitVec.allOnes n) (hpattern : r.pattern.extractLsb' lo n = 0#n)
include h hmask hpattern

/-- A field that a row's mask and match fix at 0 is 0 in every word of the row. -/
theorem field_eq_zero_of_matches : c.toNat / 2 ^ lo % 2 ^ n = 0 := by
  have hc : c &&& r.mask = r.pattern := by simpa [Row.matchesWord] using h
  have hfield : c.extractLsb' lo n = 0#n := by
    rw [← hpattern, ← hc, BitVec.extractLsb'_and, hmask, BitVec.and_allOnes]
  rw [← Nat.shiftRight_eq_div_pow, ← BitVec.extractLsb'_toNat, hfield, BitVec.toNat_zero]

/-- The same for a field that reaches up to bit 31. -/
theorem high_field_eq_zero_of_matches (hn : lo + n = 32) : c.toNat / 2 ^ lo = 0 := by
  have hlt : c.toNat / 2 ^ lo < 2 ^ n := Nat.div_lt_of_lt_mul (by rw [← pow_add, hn]; exact c.isLt)
  rw [← Nat.mod_eq_of_lt hlt]
  exact field_eq_zero_of_matches h lo n hmask hpattern

end Matches

section Rebuilt
variable {op : Op} {c : BusWord} (hop : opcodeField c = op.code)
include hop

theorem eq_formatR_rb0 (hz : c.toNat / 2 ^ 24 = 0) (hrb : c.toNat / 2 ^ 16 % 16 = 0) :
    formatR op (regField c 8) (regField c 12) 0 (regField c 20) = c := by
  have h0 : regField c 16 = 0 := Fin.ext ((regField_val c 16).trans hrb)
  simpa only [h0] using eq_formatR hop hz

theorem eq_formatL_i0 (hi : c.toNat / 2 ^ 12 % 16 = 0) (h1 : c.toNat / 2 ^ 16 % 16 = 0) (h2 : c.toNat / 2 ^ 29 = 0) :
    formatL op (regField c 8) 0 (thresholdField c) (regField c 20) = c := by
  have h0 : slotField c = 0 := (slotField_eq c).trans hi
  simpa only [h0] using eq_formatL hop h1 h2

theorem eq_formatZ (hz : c.toNat / 2 ^ 8 = 0) : formatZ op = c := by
  have h := opcodeField_toNat c
  apply BitVec.eq_of_toNat_eq
  rw [formatZ, append_toNat, BitVec.toNat_zero, ← hop]
  omega

end Rebuilt

/-- A word that matches a row is the encoding of the row's command with the word's fields. -/
theorem encode_withFields {r : Row} (hr : r ∈ opcodeMap) {c : BusWord} (h : r.matchesWord c = true) :
    encode (r.op.withFields c) = c := by
  have hop := opcode_of_matches hr h
  have hzero := field_eq_zero_of_matches h
  have hhigh := high_field_eq_zero_of_matches h
  simp only [opcodeMap, List.mem_cons, List.not_mem_nil, or_false] at hr
  obtain rfl | rfl | rfl | rfl | rfl | rfl | rfl | rfl | rfl | rfl := hr
  · exact eq_formatR_rb0 hop (hhigh 24 8 rfl rfl rfl) (hzero 16 4 rfl rfl)
  · exact eq_formatR hop (hhigh 24 8 rfl rfl rfl)
  · exact eq_formatR hop (hhigh 24 8 rfl rfl rfl)
  · exact eq_formatR_rb0 hop (hhigh 24 8 rfl rfl rfl) (hzero 16 4 rfl rfl)
  · exact eq_formatR hop (hhigh 24 8 rfl rfl rfl)
  · exact eq_formatR hop (hhigh 24 8 rfl rfl rfl)
  · exact eq_formatR_rb0 hop (hhigh 24 8 rfl rfl rfl) (hzero 16 4 rfl rfl)
  · exact eq_formatL hop (hzero 16 4 rfl rfl) (hhigh 29 3 rfl rfl rfl)
  · exact eq_formatL_i0 hop (hzero 12 4 rfl rfl) (hzero 16 4 rfl rfl) (hhigh 29 3 rfl rfl rfl)
  · exact eq_formatZ hop (hhigh 8 24 rfl rfl rfl)

/-- The fields of a word fit their widths, so what the decoder builds is well-formed (R84, R85). -/
theorem wf_withFields (op : Op) (c : BusWord) : (op.withFields c).wf = true := by
  have hk : slotField c < 16 := BitVec.isLt _
  have ht : thresholdField c < 32 := BitVec.isLt _
  cases op with
  | modred | modadd | modsub | modneg | modmul | modexp | modinv | clear => rfl
  | lagcoef => exact Instr.wf_lagcoef.mpr ⟨hk, ht⟩
  | lagrecon => exact Instr.wf_lagrecon.mpr ht

/-- Settles O2: the decoded command came from a matching row, whose mask and match fix every bit outside the fields. -/
theorem encodeInvertsDecode : Obligations.EncodeInvertsDecode := by
  intro c i h
  obtain ⟨r, hr, hm, rfl⟩ := decode_ok h
  exact ⟨encode_withFields hr hm, wf_withFields r.op c⟩

/-! ### The opcode map (R86) -/

/-- The test of one row, with the row's mask and match written out. -/
theorem decode_of_mask {op : Op} {mask pattern : BusWord} (hr : ⟨op, mask, pattern⟩ ∈ opcodeMap) {c : BusWord}
    (h : c &&& mask = pattern) : decode c = .ok (op.withFields c) :=
  decode_of_matches hr (beq_iff_eq.mpr h)

theorem exists_decode_error_of_mask {c : BusWord} (h : ∀ r ∈ opcodeMap, c &&& r.mask ≠ r.pattern) :
    ∃ e, decode c = .error e :=
  ⟨_, decode_of_no_match fun r hr => beq_eq_false_iff_ne.mpr (h r hr)⟩

/-- Settles O3: each clause is the test of one row of the map. -/
theorem opcodeMapDecodes : Obligations.OpcodeMapDecodes := by
  intro c
  refine ⟨decode_of_mask (op := .modred) (by decide), decode_of_mask (op := .modadd) (by decide),
    decode_of_mask (op := .modsub) (by decide), decode_of_mask (op := .modneg) (by decide),
    decode_of_mask (op := .modmul) (by decide), decode_of_mask (op := .modexp) (by decide),
    decode_of_mask (op := .modinv) (by decide), decode_of_mask (op := .lagcoef) (by decide),
    decode_of_mask (op := .lagrecon) (by decide), decode_of_mask (op := .clear) (by decide), ?_⟩
  intro modred modadd modsub modneg modmul modexp modinv lagcoef lagrecon clear
  apply exists_decode_error_of_mask
  simp only [opcodeMap, List.forall_mem_cons]
  exact ⟨modred, modadd, modsub, modneg, modmul, modexp, modinv, lagcoef, lagrecon, clear, nofun⟩

/-! ### The encodings as sums (R87) -/

theorem formatR_toNat_rb0 (op : Op) (rd ra rm : Reg) : (formatR op rd ra 0 rm).toNat =
    op.code.toNat + rd.val * 2 ^ 8 + ra.val * 2 ^ 12 + rm.val * 2 ^ 20 := by
  rw [formatR_toNat, Fin.val_zero, Nat.zero_mul, Nat.add_zero]

theorem formatL_toNat_i0 (op : Op) (rd : Reg) {t : Nat} (rm : Reg) (ht : t < 32) : (formatL op rd 0 t rm).toNat =
    op.code.toNat + rd.val * 2 ^ 8 + rm.val * 2 ^ 20 + t * 2 ^ 24 := by
  rw [formatL_toNat op rd 0 t rm (by decide) ht, Nat.zero_mul, Nat.add_zero]

/-- Settles O4: each sum is its format's, with the field a command lacks at 0. -/
theorem encodingIsTheFieldSum : Obligations.EncodingIsTheFieldSum := by
  intro rd ra rb rm i t hi ht
  exact ⟨formatR_toNat_rb0 .modred rd ra rm, formatR_toNat .modadd rd ra rb rm, formatR_toNat .modsub rd ra rb rm,
    formatR_toNat_rb0 .modneg rd ra rm, formatR_toNat .modmul rd ra rb rm, formatR_toNat .modexp rd ra rb rm,
    formatR_toNat_rb0 .modinv rd ra rm, formatL_toNat .lagcoef rd i t rm hi ht,
    formatL_toNat_i0 .lagrecon rd rm ht, rfl⟩

end Sys2Proof

namespace Sys2Proof.Machine

/-! ### Words that are no command (R89) -/

/-- A word that is the encoding of no command only raises IllegalCommand, for a word that decodes is an encoding. -/
theorem runCommand_of_not_encoding {c : BusWord} (h : ∀ i : Instr, i.wf = true → encode i ≠ c) (s : State) :
    runCommand c s = .next (s.raise .illegalCommand) := by
  rcases runCommand_cases c s with ⟨-, hrun⟩ | ⟨i, hdec, -⟩
  · exact hrun
  · obtain ⟨henc, hwf⟩ := encodeInvertsDecode c i hdec
    exact absurd henc (h i hwf)

theorem code_toNat_mem (op : Op) :
    op.code.toNat ∈ [0x01, 0x02, 0x03, 0x04, 0x05, 0x10, 0x11, 0x20, 0x21, 0xF0] := by
  cases op <;> decide

/-- Fewer shares than t: LAGCOEF takes InsufficientSharesError before anything else (43_lagrange.md R152). -/
theorem exec_lagcoef_insufficient {s : State} {t : Nat} (h : s.count.toNat < t) (rd rm : Reg) (i : Nat) :
    exec (.lagcoef rd i t rm) s = .next { s with err := 2#2 } := by
  rw [exec_eq_finish (rd := rd) rfl, resultOf, checkLagrange_insufficient h]
  rfl

/-- Fewer shares than t: LAGRECON takes InsufficientSharesError before anything else (43_lagrange.md R152). -/
theorem exec_lagrecon_insufficient {s : State} {t : Nat} (h : s.count.toNat < t) (rd rm : Reg) :
    exec (.lagrecon rd t rm) s = .next { s with err := 2#2 } := by
  rw [exec_eq_finish (rd := rd) rfl, resultOf, checkLagrange_insufficient h]
  rfl

/-- Settles O6: only encodings decode, an encoding has one of the ten opcodes, and t above 16 is above COUNT. -/
theorem illegalWordsRaiseIllegalCommand : Obligations.IllegalWordsRaiseIllegalCommand := by
  intro s c rest
  refine ⟨fun h => ?_, fun hop i hwf henc => hop ?_, fun rd rm k t hk ht17 ht31 hs => ?_⟩
  · have hstep := step_cmd s c rest
    rw [runCommand_of_not_encoding h] at hstep
    exact hstep
  · rw [← opcodeField_toNat, ← henc, opcodeField_encode hwf]
    exact code_toNat_mem i.op
  · have ht : t < 32 := by omega
    have hcount : s.count.toNat < t := by
      rw [State.inv_iff] at hs
      omega
    exact ⟨decode_ofNat_of_toNat_encode (Instr.wf_lagcoef.mpr ⟨hk, ht⟩) (formatL_toNat .lagcoef rd k t rm hk ht),
      exec_lagcoef_insufficient hcount rd rm k,
      decode_ofNat_of_toNat_encode (Instr.wf_lagrecon.mpr ht) (formatL_toNat_i0 .lagrecon rd rm ht),
      exec_lagrecon_insufficient hcount rd rm⟩

end Sys2Proof.Machine
end

section
/-!
PROOFS. The family of 40_field_arith.md: the five commands whole, their identities as sequences of commands, and what an
outcome depends on.
-/

namespace Sys2Proof.Machine

/-! ### The residue under addition and negation (00_scope.md R10) -/

/-- Two integers congruent mod m have one residue. -/
theorem residue_eq_of_modEq {a b : Int} {m : Nat} (h : a ≡ b [ZMOD m]) : residue a m = residue b m :=
  congrArg Int.toNat h

/-- A residue taken back into a sum does not change the sum's residue. -/
theorem add_residue_mod (a : Nat) (b : Int) {m : Nat} (hm : m ≠ 0) : (a + residue b m) % m = residue (a + b) m := by
  rw [← residue_natCast]
  apply residue_eq_of_modEq
  push_cast
  exact (residue_modEq b hm).add_left a

/-- The residue of `0 - a`, as R115 writes it. -/
theorem residue_zero_sub (a : Nat) {m : Nat} (hm : m ≠ 0) : residue (0 - (a : Int)) m = (m - a % m) % m := by
  have hle : a % m ≤ m := (Nat.mod_lt a (Nat.pos_of_ne_zero hm)).le
  rw [← residue_natCast]
  apply residue_eq_of_modEq
  push_cast [hle]
  exact Int.ModEq.sub (by simp [Int.ModEq]) (Int.mod_modEq _ _).symm

/-- Negating twice gives the operand mod m (R118). -/
theorem residue_zero_sub_residue_zero_sub (a : Nat) {m : Nat} (hm : m ≠ 0) :
    residue (0 - (residue (0 - (a : Int)) m : Int)) m = a % m := by
  rw [← residue_natCast]
  apply residue_eq_of_modEq
  simpa using (residue_modEq (0 - (a : Int)) hm).sub_left 0

/-! ### How a command under the zero-modulus test ends (R111, R117) -/

theorem State.regVal_eq_zero_iff {s : State} {n : Reg} : s.regVal n = 0 ↔ s.x[n] = 0#256 :=
  BitVec.toNat_inj (y := 0#256)

/-- With modulus 0 the command takes DomainError, whatever its result would be. -/
theorem exec_modulus_zero {i : Instr} {s : State} {rd rm : Reg} {r : Except Err Nat} (hd : i.dest = some rd)
    (hr : resultOf i s = checkModulus (s.regVal rm) r) (hm : s.x[rm] = 0#256) :
    exec i s = .next { s with err := 1#2 } := by
  rw [exec_eq_finish hd, hr, State.regVal_eq_zero_iff.mpr hm]
  rfl

/-- A command that has a result completes with it. -/
theorem exec_eq_complete {i : Instr} {s : State} {rd : Reg} {v : Nat} (hd : i.dest = some rd)
    (hr : resultOf i s = .ok v) : exec i s = .next (s.complete rd v) := by
  rw [exec_eq_finish hd, hr, State.finish_ok]

/-- With modulus not 0 the command writes its result, which fits in a register, and clears the code. -/
theorem exec_modulus_ne_zero {i : Instr} {s : State} {rd rm : Reg} {v : Nat} (hd : i.dest = some rd)
    (hlast : i.sources.getLast? = some rm) (hr : resultOf i s = checkModulus (s.regVal rm) (.ok v))
    (hm : s.x[rm] ≠ 0#256) :
    ∃ w : Word, w.toNat = v ∧ exec i s = .next { s with x := s.x.set rd w, err := 0#2 } := by
  rw [checkModulus_pos (mt State.regVal_eq_zero_iff.mp hm)] at hr
  obtain ⟨w, hw, hcomplete⟩ := s.complete_eq rd (resultOf_lt hlast hr) (s.regVal_lt rm)
  exact ⟨w, hw, by rw [exec_eq_complete hd hr, hcomplete]⟩

/-! ### The five commands, whole (R112 to R116) -/

/-- Settles O8: the encoding's sum, the zero-modulus error, the reduction. -/
theorem modredResult : Obligations.ModredResult := fun _ rd ra rm =>
  ⟨decode_ofNat_of_toNat_encode rfl (formatR_toNat_rb0 .modred rd ra rm), exec_modulus_zero rfl rfl,
    exec_modulus_ne_zero rfl rfl rfl⟩

/-- Settles O9: the encoding's sum, the zero-modulus error, the reduction of the exact sum. -/
theorem modaddResult : Obligations.ModaddResult := fun _ rd ra rb rm =>
  ⟨decode_ofNat_of_toNat_encode rfl (formatR_toNat .modadd rd ra rb rm), exec_modulus_zero rfl rfl,
    exec_modulus_ne_zero rfl rfl rfl⟩

/-- Settles O10: the written natural, cast to an integer, is `%` of the exact integer difference. -/
theorem modsubResult : Obligations.ModsubResult := by
  intro s rd ra rb rm
  refine ⟨decode_ofNat_of_toNat_encode rfl (formatR_toNat .modsub rd ra rb rm), exec_modulus_zero rfl rfl,
    fun hm => ?_⟩
  obtain ⟨w, hw, hexec⟩ := exec_modulus_ne_zero (i := .modsub rd ra rb rm) rfl rfl rfl hm
  exact ⟨w, hw ▸ residue_cast _ (mt State.regVal_eq_zero_iff.mp hm), hexec⟩

/-- Settles O11: the residue of `0 - a` is R115's second form. -/
theorem modnegResult : Obligations.ModnegResult := by
  intro s rd ra rm
  refine ⟨decode_ofNat_of_toNat_encode rfl (formatR_toNat_rb0 .modneg rd ra rm), exec_modulus_zero rfl rfl,
    fun hm => ?_⟩
  obtain ⟨w, hw, hexec⟩ := exec_modulus_ne_zero (i := .modneg rd ra rm) rfl rfl rfl hm
  exact ⟨w, hw.trans (residue_zero_sub _ (mt State.regVal_eq_zero_iff.mp hm)), hexec⟩

/-- Settles O12: the encoding's sum, the zero-modulus error, the reduction of the exact product. -/
theorem modmulResult : Obligations.ModmulResult := fun _ rd ra rb rm =>
  ⟨decode_ofNat_of_toNat_encode rfl (formatR_toNat .modmul rd ra rb rm), exec_modulus_zero rfl rfl,
    exec_modulus_ne_zero rfl rfl rfl⟩

/-! ### Sequences of commands (R118) -/

section Complete
variable (s : State) {rd k : Reg} {v : Nat}

theorem State.complete_x_self : (s.complete rd v).x[rd] = BitVec.ofNat 256 v := by
  simp

/-- The destination read back after a completion, for a result that fits. -/
theorem State.regVal_complete_self {m : Nat} (hv : v < m) (hm : m < 2 ^ 256) : (s.complete rd v).regVal rd = v := by
  rw [State.regVal, State.complete_x_self, ofNat_toNat_of_lt hv hm]

theorem State.regVal_complete_ne (h : k ≠ rd) : (s.complete rd v).regVal k = s.regVal k :=
  congrArg BitVec.toNat (s.finish_x_ne h (.ok v))

end Complete

section ModulusNonzero
variable {s : State} {rm : Reg} (hm : s.regVal rm ≠ 0) (rd ra rb : Reg)
include hm

theorem exec_modred : exec (.modred rd ra rm) s = .next (s.complete rd (s.regVal ra % s.regVal rm)) :=
  exec_eq_complete rfl (checkModulus_pos hm _)

theorem exec_modadd :
    exec (.modadd rd ra rb rm) s = .next (s.complete rd ((s.regVal ra + s.regVal rb) % s.regVal rm)) :=
  exec_eq_complete rfl (checkModulus_pos hm _)

theorem exec_modsub : exec (.modsub rd ra rb rm) s =
    .next (s.complete rd (residue ((s.regVal ra : Int) - s.regVal rb) (s.regVal rm))) :=
  exec_eq_complete rfl (checkModulus_pos hm _)

theorem exec_modneg :
    exec (.modneg rd ra rm) s = .next (s.complete rd (residue (0 - (s.regVal ra : Int)) (s.regVal rm))) :=
  exec_eq_complete rfl (checkModulus_pos hm _)

theorem exec_modmul :
    exec (.modmul rd ra rb rm) s = .next (s.complete rd (s.regVal ra * s.regVal rb % s.regVal rm)) :=
  exec_eq_complete rfl (checkModulus_pos hm _)

/-- MODNEG into a scratch register, then MODADD of it to the first source: the residue of the difference (R118). -/
theorem exec_modneg_modadd {rn : Reg} (hrm : rm ≠ rn) (hra : ra ≠ rn) :
    ∃ s1 s2, exec (.modneg rn rb rm) s = .next s1 ∧ exec (.modadd rd ra rn rm) s1 = .next s2 ∧
      s2.x[rd] = BitVec.ofNat 256 (residue ((s.regVal ra : Int) - s.regVal rb) (s.regVal rm)) := by
  have hm1 : ∀ v, (s.complete rn v).regVal rm ≠ 0 := fun v => by rwa [s.regVal_complete_ne hrm]
  refine ⟨_, _, exec_modneg hm rn rb, exec_modadd (hm1 _) rd ra rn, ?_⟩
  rw [State.complete_x_self, s.regVal_complete_ne hrm, s.regVal_complete_ne hra,
    s.regVal_complete_self (residue_lt _ hm) (s.regVal_lt rm), add_residue_mod _ _ hm, zero_sub, ← sub_eq_add_neg]

/-- MODNEG twice, through a scratch register (R118). -/
theorem exec_modneg_modneg {rn : Reg} (hrm : rm ≠ rn) :
    ∃ s1 s2, exec (.modneg rn ra rm) s = .next s1 ∧ exec (.modneg rd rn rm) s1 = .next s2 ∧
      s2.regVal rd = s.regVal ra % s.regVal rm := by
  have hm1 : ∀ v, (s.complete rn v).regVal rm ≠ 0 := fun v => by rwa [s.regVal_complete_ne hrm]
  refine ⟨_, _, exec_modneg hm rn ra, exec_modneg (hm1 _) rd rn, ?_⟩
  rw [State.regVal_complete_self _ (residue_lt _ (hm1 _)) (State.regVal_lt _ rm), s.regVal_complete_ne hrm,
    s.regVal_complete_self (residue_lt _ hm) (s.regVal_lt rm), residue_zero_sub_residue_zero_sub _ hm]

/-- MODRED twice, through a scratch register (R118). -/
theorem exec_modred_modred {rn : Reg} (hrm : rm ≠ rn) :
    ∃ s1 s2, exec (.modred rn ra rm) s = .next s1 ∧ exec (.modred rd rn rm) s1 = .next s2 ∧
      s2.x[rd] = s1.x[rn] := by
  have hm1 : ∀ v, (s.complete rn v).regVal rm ≠ 0 := fun v => by rwa [s.regVal_complete_ne hrm]
  refine ⟨_, _, exec_modred hm rn ra, exec_modred (hm1 _) rd rn, ?_⟩
  rw [State.complete_x_self, State.complete_x_self, s.regVal_complete_ne hrm,
    s.regVal_complete_self (Nat.mod_lt _ (Nat.pos_of_ne_zero hm)) (s.regVal_lt rm), Nat.mod_mod]

/-- MODMUL by 1 is MODRED (R118). -/
theorem exec_modmul_one (hb : s.regVal rb = 1) : exec (.modmul rd ra rb rm) s = exec (.modred rd ra rm) s := by
  rw [exec_modmul hm, exec_modred hm, hb, mul_one]

end ModulusNonzero

/-- With modulus 1 a result is 0, the only number below 1. -/
theorem exec_modulus_one {i : Instr} {s : State} {rd rm : Reg} {v : Nat} (hd : i.dest = some rd)
    (hlast : i.sources.getLast? = some rm) (hr : resultOf i s = checkModulus (s.regVal rm) (.ok v))
    (hm : s.regVal rm = 1) : exec i s = .next { s with x := s.x.set rd 0#256, err := 0#2 } := by
  rw [checkModulus_pos (by omega)] at hr
  obtain rfl : v = 0 := by
    have hv := resultOf_lt hlast hr
    omega
  rw [exec_eq_complete hd hr]
  rfl

/-- Settles O13: each identity is that of the residues, the scratch register keeping the operands still to be read. -/
theorem fieldIdentities : Obligations.FieldIdentities := by
  intro s rd rn ra rb rm hm0 hnm hna
  have hm : s.regVal rm ≠ 0 := mt State.regVal_eq_zero_iff.mp hm0
  refine ⟨?_, ?_, exec_modneg_modneg hm rd ra hnm.symm, fun hb => ?_,
    exec_modred_modred hm rd ra hnm.symm, fun h1 => ?_⟩
  · obtain ⟨s1, s2, hneg, hadd, hx⟩ := exec_modneg_modadd hm rd ra rb hnm.symm hna.symm
    exact ⟨s1, s2, _, hneg, hadd, exec_modsub hm rd ra rb, hx.trans (s.complete_x_self).symm⟩
  · obtain ⟨s1, s2, hneg, hadd, hx⟩ := exec_modneg_modadd hm rd ra ra hnm.symm hna.symm
    refine ⟨s1, s2, hneg, hadd, ?_⟩
    rw [hx, sub_self, residue_unique (Nat.pos_of_ne_zero hm) (Int.ModEq.refl 0)]
  · have hone : s.regVal rb = 1 := congrArg BitVec.toNat hb
    exact ⟨_, _, (exec_modmul_one hm rd ra rb hone).trans (exec_modred hm rd ra), exec_modred hm rd ra, rfl⟩
  · have hone : s.regVal rm = 1 := congrArg BitVec.toNat h1
    simp only [List.forall_mem_cons]
    exact ⟨exec_modulus_one rfl rfl rfl hone, exec_modulus_one rfl rfl rfl hone, exec_modulus_one rfl rfl rfl hone,
      exec_modulus_one rfl rfl rfl hone, exec_modulus_one rfl rfl rfl hone, nofun⟩

/-! ### What an outcome depends on (R117 item 6, 43_lagrange.md R151) -/

theorem lagProduct_congr {f g : Nat → Int} (i m : Nat) :
    ∀ {t : Nat}, (∀ j < t, f j = g j) → lagProduct f i t m = lagProduct g i t m
  | 0, _ => rfl
  | t + 1, h => by
    rw [lagProduct_succ, lagProduct_succ, h t (by omega), lagProduct_congr i m fun j hj => h j (by omega)]

/-- A coefficient of a used slot depends on the used slots' indices alone. -/
theorem lag_congr {xs ys : Nat → Nat} {i t : Nat} (hi : i < t) (h : ∀ n < t, xs n = ys n) (m : Nat) :
    lag i t xs m = lag i t ys m := by
  have hden : lagProduct (fun j => (xs i : Int) - xs j) i t m = lagProduct (fun j => (ys i : Int) - ys j) i t m :=
    lagProduct_congr i m fun j hj => by rw [h i hi, h j hj]
  have hnum : lagProduct (fun j => 0 - (xs j : Int)) i t m = lagProduct (fun j => 0 - (ys j : Int)) i t m :=
    lagProduct_congr i m fun j hj => by rw [h j hj]
  simp only [lag, hden, hnum]

theorem reconUpTo_congr {xs ys fs gs : Nat → Nat} {t : Nat} (hx : ∀ n < t, xs n = ys n)
    (hf : ∀ n < t, fs n = gs n) (m : Nat) : ∀ {k : Nat}, k ≤ t → reconUpTo k t xs fs m = reconUpTo k t ys gs m
  | 0, _ => rfl
  | k + 1, hk => by
    rw [reconUpTo_succ, reconUpTo_succ, reconUpTo_congr hx hf m (by omega : k ≤ t)]
    simp only [reconStep, lag_congr hk hx, hf k hk]

/-- The sum depends on the used slots alone. -/
theorem recon_congr {xs ys fs gs : Nat → Nat} {t : Nat} (hx : ∀ n < t, xs n = ys n)
    (hf : ∀ n < t, fs n = gs n) (m : Nat) : recon t xs fs m = recon t ys gs m :=
  reconUpTo_congr hx hf m le_rfl

/-- The result past the checks of LAGCOEF is used for a slot below t only. -/
theorem checkLagrange_congr {count t m i : Nat} {r r' : Except Err Nat} (h : i < t → r = r') :
    checkLagrange count t m (decide (t ≤ i)) r = checkLagrange count t m (decide (t ≤ i)) r' := by
  by_cases hi : i < t
  · rw [h hi]
  · simp [checkLagrange, Nat.le_of_not_lt hi]

/-- A result depends on the source registers and, for a Lagrange command, on COUNT and the used slots. -/
theorem resultOf_congr {i : Instr} {s u : State} (hreg : ∀ r ∈ i.sources, s.regVal r = u.regVal r)
    (hcoef : ∀ rd k t rm, i = .lagcoef rd k t rm → s.count = u.count ∧ ∀ n < t, s.slotX n = u.slotX n)
    (hrecon : ∀ rd t rm, i = .lagrecon rd t rm →
      s.count = u.count ∧ ∀ n < t, s.slotX n = u.slotX n ∧ s.slotF n = u.slotF n) :
    resultOf i s = resultOf i u := by
  cases i with
  | clear => rfl
  | modred | modneg | modinv | modadd | modsub | modmul | modexp =>
    simp only [Instr.sources, List.forall_mem_cons] at hreg
    simp only [resultOf, hreg]
  | lagcoef rd k t rm =>
    obtain ⟨hcount, hX⟩ := hcoef rd k t rm rfl
    have hm : s.regVal rm = u.regVal rm := hreg rm (List.mem_singleton_self rm)
    simp only [resultOf, hcount, hm]
    exact checkLagrange_congr fun hk => lag_congr hk (fun n hn => by rw [hX n hn]) _
  | lagrecon rd t rm =>
    obtain ⟨hcount, hXF⟩ := hrecon rd t rm rfl
    have hm : s.regVal rm = u.regVal rm := hreg rm (List.mem_singleton_self rm)
    simp only [resultOf, hcount, hm]
    rw [recon_congr (fun n hn => by rw [(hXF n hn).1]) (fun n hn => by rw [(hXF n hn).2])]

/-- One result finished in two states leaves one code and, if that is 0, one value in the destination. -/
theorem State.finish_agree (s u : State) (rd : Reg) (r : Except Err Nat) :
    (s.finish rd r).err = (u.finish rd r).err ∧
      ((s.finish rd r).err = 0#2 → (s.finish rd r).x[rd] = (u.finish rd r).x[rd]) := by
  cases r with
  | error e => exact ⟨rfl, fun h => absurd h e.code_ne_zero⟩
  | ok v => exact ⟨rfl, fun _ => (s.complete_x_self).trans (u.complete_x_self).symm⟩

/-- Settles O38: equal sources give one result, which both states finish with; CLEAR has no source. -/
theorem outcomeDependsOnSourcesOnly : Obligations.OutcomeDependsOnSourcesOnly := by
  intro i s u hreg hcoef hrecon
  cases hd : i.dest with
  | none =>
    obtain rfl := eq_clear_of_dest hd
    exact ⟨_, _, exec_clear s, exec_clear u, rfl, fun _ _ h => nomatch h⟩
  | some rd =>
    have hres := resultOf_congr (fun r hr => congrArg BitVec.toNat (hreg r hr)) hcoef hrecon
    obtain ⟨herr, hx⟩ := s.finish_agree u rd (resultOf i u)
    refine ⟨_, _, hres ▸ exec_eq_finish hd s, exec_eq_finish hd u, herr, fun h0 rd' hd' => ?_⟩
    obtain rfl : rd = rd' := Option.some.inj hd'
    exact hx h0

end Sys2Proof.Machine
end

section
/-!
PROOFS. The family of 41_modexp.md: MODEXP whole, and the corner values of its power.
-/

namespace Sys2Proof.Machine

/-! ### MODEXP, whole (R131) -/

/-- With modulus not 0, MODEXP completes with the power of R131, which the loop of R132 computes. -/
theorem exec_modexp_ne_zero {s : State} {rm : Reg} (rd ra rb : Reg) (hm : s.x[rm] ≠ 0#256) :
    ∃ v : Word, v.toNat = (s.regVal ra % s.regVal rm) ^ s.regVal rb % s.regVal rm ∧
      exec (.modexp rd ra rb rm) s = .next { s with x := s.x.set rd v, err := 0#2 } := by
  obtain ⟨v, hv, hexec⟩ := exec_modulus_ne_zero (i := .modexp rd ra rb rm) rfl rfl rfl hm
  exact ⟨v, hv.trans (modexp_eq _ (s.regVal_lt rb) (mt State.regVal_eq_zero_iff.mp hm)), hexec⟩

/-- Settles O15: the encoding's sum, the zero-modulus error, the power of the reduced base. -/
theorem modexpResult : Obligations.ModexpResult := fun _ rd ra rb rm =>
  ⟨decode_ofNat_of_toNat_encode rfl (formatR_toNat .modexp rd ra rb rm), exec_modulus_zero rfl rfl,
    exec_modexp_ne_zero rd ra rb⟩

/-! ### Corner values (R133) -/

/-- Fermat's little theorem, as R133 has it: a base that is not a multiple of a prime p, to the power p - 1. -/
theorem pow_prime_sub_one_mod {p a : Nat} (hp : p.Prime) (ha : a % p ≠ 0) : (a % p) ^ (p - 1) % p = 1 := by
  have hcop : Nat.Coprime (a % p) p :=
    (hp.coprime_iff_not_dvd.mpr fun h => ha (Nat.mod_mod a p ▸ Nat.mod_eq_zero_of_dvd h)).symm
  calc (a % p) ^ (p - 1) % p = 1 % p := Nat.totient_prime hp ▸ Nat.ModEq.pow_totient hcop
    _ = 1 := Nat.mod_eq_of_lt hp.one_lt

/-- Settles O16: each row is the power of R131 at that corner, read back from the destination. -/
theorem modexpCorners : Obligations.ModexpCorners := by
  intro s rd ra rb rm hm
  obtain ⟨v, hv, hexec⟩ := exec_modexp_ne_zero rd ra rb hm
  have hzero : v.toNat = 0 → v = 0#256 := BitVec.eq_of_toNat_eq (y := 0#256)
  have hone : v.toNat = 1 → v = 1#256 := BitVec.eq_of_toNat_eq (y := 1#256)
  refine ⟨v, hexec, fun he hm1 => hone ?_, fun hm1 => hzero ?_,
    fun (ha : s.regVal ra % s.regVal rm = 0) he => hzero ?_, fun (ha : s.regVal ra % s.regVal rm = 1) => hone ?_,
    fun he => ?_, fun hp ha (he : s.regVal rb = s.regVal rm - 1) => hone ?_⟩
  · have he0 : s.regVal rb = 0 := State.regVal_eq_zero_iff.mpr he
    have hm1 : s.regVal rm ≠ 1 := mt (BitVec.eq_of_toNat_eq (y := 1#256)) hm1
    rw [hv, he0, pow_zero, Nat.one_mod_eq_one.mpr hm1]
  · have hm1 : s.regVal rm = 1 := congrArg BitVec.toNat hm1
    rw [hv, hm1, Nat.mod_one]
  · rw [hv, ha, zero_pow (mt State.regVal_eq_zero_iff.mp he), Nat.zero_mod]
  · rw [hv, ha, one_pow, ← ha, Nat.mod_mod]
  · have he1 : s.regVal rb = 1 := congrArg BitVec.toNat he
    change v.toNat = s.regVal ra % s.regVal rm
    rw [hv, he1, pow_one, Nat.mod_mod]
  · rw [hv, he]
    exact pow_prime_sub_one_mod hp ha

end Sys2Proof.Machine
end

section
/-!
PROOFS. The family of 42_modinv.md: MODINV whole, its laws as sequences of commands, and its corner values.
-/

namespace Sys2Proof.Machine

/-! ### What `modinv` answers (R141, R142) -/

theorem modinv_eq_error {a m : Nat} (hm : m ≠ 0) (hg : Nat.gcd a m ≠ 1) : modinv a m = .error .domain := by
  rcases modinv_spec a hm with ⟨h1, -⟩ | ⟨-, h⟩
  · exact absurd h1 hg
  · exact h

theorem modinv_eq_ok_of_gcd {a m : Nat} (hm : m ≠ 0) (hg : Nat.gcd a m = 1) :
    ∃ y, modinv a m = .ok y ∧ y < m ∧ a * y ≡ 1 [MOD m] := by
  rcases modinv_spec a hm with ⟨-, h⟩ | ⟨h1, -⟩
  · exact h
  · exact absurd hg h1

/-- Any inverse below the modulus is the one `modinv` answers, for it makes the gcd 1. -/
theorem modinv_eq_ok {a m y : Nat} (hy : y < m) (h : a * y ≡ 1 [MOD m]) : modinv a m = .ok y := by
  obtain ⟨z, hz, hlt, hmul⟩ := modinv_eq_ok_of_gcd (Nat.ne_zero_of_lt hy) (Nat.coprime_of_mul_modEq_one y h)
  rw [hz, inverse_unique hlt hy hmul h]

/-- The loop starts from the operand's residue. -/
theorem modinv_mod (a m : Nat) : modinv (a % m) m = modinv a m := by
  simp only [modinv, Nat.mod_mod]

/-! ### MODINV, whole (R141) -/

theorem exec_modinv {s : State} {rm : Reg} (hm : s.regVal rm ≠ 0) (rd ra : Reg) :
    exec (.modinv rd ra rm) s = .next (s.finish rd (modinv (s.regVal ra) (s.regVal rm))) := by
  rw [exec_eq_finish (rd := rd) rfl, resultOf, checkModulus_pos hm]

theorem exec_modinv_of_gcd_ne_one {s : State} {ra rm : Reg} (hm : s.regVal rm ≠ 0)
    (hg : Nat.gcd (s.regVal ra) (s.regVal rm) ≠ 1) (rd : Reg) :
    exec (.modinv rd ra rm) s = .next { s with err := 1#2 } := by
  rw [exec_modinv hm, modinv_eq_error hm hg]
  rfl

/-- MODINV completes with any inverse of the operand that is below the modulus. -/
theorem exec_modinv_of_inverse {s : State} {ra rm : Reg} {y : Nat} (hy : y < s.regVal rm)
    (h : s.regVal ra * y ≡ 1 [MOD s.regVal rm]) (rd : Reg) : exec (.modinv rd ra rm) s = .next (s.complete rd y) := by
  rw [exec_modinv (Nat.ne_zero_of_lt hy), modinv_eq_ok hy h, State.finish_ok]

theorem exec_modinv_of_gcd_eq_one {s : State} {ra rm : Reg} (hm : s.regVal rm ≠ 0)
    (hg : Nat.gcd (s.regVal ra) (s.regVal rm) = 1) (rd : Reg) :
    ∃ v : Word, v.toNat < s.regVal rm ∧ s.regVal ra * v.toNat ≡ 1 [MOD s.regVal rm] ∧
      exec (.modinv rd ra rm) s = .next { s with x := s.x.set rd v, err := 0#2 } := by
  obtain ⟨y, -, hlt, hmul⟩ := modinv_eq_ok_of_gcd hm hg
  obtain ⟨v, rfl, hcomplete⟩ := s.complete_eq rd hlt (s.regVal_lt rm)
  exact ⟨v, hlt, hmul, by rw [exec_modinv_of_inverse hlt hmul, hcomplete]⟩

/-- Settles O17: the encoding's sum, the two errors, and the inverse, which is the only one below the modulus. -/
theorem modinvResult : Obligations.ModinvResult := by
  intro s rd ra rm
  refine ⟨decode_ofNat_of_toNat_encode rfl (formatR_toNat_rb0 .modinv rd ra rm), exec_modulus_zero rfl rfl,
    fun hm hg => exec_modinv_of_gcd_ne_one (mt State.regVal_eq_zero_iff.mp hm) hg rd, fun hm hg => ?_⟩
  obtain ⟨v, hlt, hmul, hexec⟩ := exec_modinv_of_gcd_eq_one (mt State.regVal_eq_zero_iff.mp hm) hg rd
  exact ⟨v, hlt, hmul, fun y hy hymul => inverse_unique hy hlt hymul hmul, hexec⟩

/-! ### Sequences of commands (R144) -/

/-- A completion over a completion into the same register leaves no trace of the first. -/
theorem State.complete_complete (s : State) (rd : Reg) (v w : Nat) :
    (s.complete rd v).complete rd w = s.complete rd w := by
  simp [State.complete, State.setReg, State.setErr]

/-- One result finished after a completion into its destination, or without it: one code and, if that is 0, one state. -/
theorem State.finish_complete_agree (s : State) (rd : Reg) (v : Nat) (r : Except Err Nat) :
    ((s.complete rd v).finish rd r).err = (s.finish rd r).err ∧
      ((s.finish rd r).err = 0#2 → (s.complete rd v).finish rd r = s.finish rd r) := by
  cases r with
  | error e => exact ⟨rfl, fun h => absurd h e.code_ne_zero⟩
  | ok w => exact ⟨rfl, fun _ => s.complete_complete rd v w⟩

section Sequences
variable {s : State} {rn ra rm : Reg} (hrm : rm ≠ rn) (rd : Reg)
include hrm

/-- MODINV into a scratch register, then MODMUL of the operand by it: 1 mod m. -/
theorem exec_modinv_modmul (hra : ra ≠ rn) (hm : s.regVal rm ≠ 0) (hg : Nat.gcd (s.regVal ra) (s.regVal rm) = 1) :
    ∃ s1 s2, exec (.modinv rn ra rm) s = .next s1 ∧ exec (.modmul rd ra rn rm) s1 = .next s2 ∧
      s2.err = 0#2 ∧ s2.regVal rd = 1 % s.regVal rm := by
  obtain ⟨y, -, hlt, hmul⟩ := modinv_eq_ok_of_gcd hm hg
  have hrm1 : (s.complete rn y).regVal rm = s.regVal rm := s.regVal_complete_ne hrm
  refine ⟨_, _, exec_modinv_of_inverse hlt hmul rn, exec_modmul (hrm1 ▸ hm) rd ra rn, rfl, ?_⟩
  rw [State.regVal_complete_self _ (Nat.mod_lt _ (Nat.pos_of_ne_zero (hrm1 ▸ hm))) (State.regVal_lt _ rm), hrm1,
    s.regVal_complete_ne hra, s.regVal_complete_self hlt (s.regVal_lt rm)]
  exact hmul

/-- MODINV twice, through a scratch register: the operand's residue, which is an inverse of its inverse. -/
theorem exec_modinv_modinv (hm : s.regVal rm ≠ 0) (hg : Nat.gcd (s.regVal ra) (s.regVal rm) = 1) :
    ∃ s1 s2, exec (.modinv rn ra rm) s = .next s1 ∧ exec (.modinv rd rn rm) s1 = .next s2 ∧
      s2.err = 0#2 ∧ s2.regVal rd = s.regVal ra % s.regVal rm := by
  obtain ⟨y, -, hlt, hmul⟩ := modinv_eq_ok_of_gcd hm hg
  have hrm1 : (s.complete rn y).regVal rm = s.regVal rm := s.regVal_complete_ne hrm
  have hrn1 : (s.complete rn y).regVal rn = y := s.regVal_complete_self hlt (s.regVal_lt rm)
  have hres : s.regVal ra % s.regVal rm < s.regVal rm := Nat.mod_lt _ (Nat.pos_of_ne_zero hm)
  have hinv : y * (s.regVal ra % s.regVal rm) ≡ 1 [MOD s.regVal rm] := by
    calc y * (s.regVal ra % s.regVal rm) ≡ y * s.regVal ra [MOD s.regVal rm] := (Nat.mod_modEq _ _).mul_left y
      _ = s.regVal ra * y := mul_comm _ _
      _ ≡ 1 [MOD s.regVal rm] := hmul
  refine ⟨_, _, exec_modinv_of_inverse hlt hmul rn,
    exec_modinv_of_inverse (by rwa [hrm1]) (by rwa [hrm1, hrn1]) rd, rfl, ?_⟩
  exact State.regVal_complete_self _ hres (s.regVal_lt rm)

/-- MODINV of the residue MODRED writes ends as MODINV of the operand does. -/
theorem exec_modred_modinv (hm : s.regVal rm ≠ 0) :
    ∃ s1 s2 s3, exec (.modred rn ra rm) s = .next s1 ∧ exec (.modinv rn rn rm) s1 = .next s2 ∧
      exec (.modinv rn ra rm) s = .next s3 ∧ s2.err = s3.err ∧ (s3.err = 0#2 → s2 = s3) := by
  have hrm1 : ∀ v, (s.complete rn v).regVal rm = s.regVal rm := fun _ => s.regVal_complete_ne hrm
  refine ⟨_, _, _, exec_modred hm rn ra, exec_modinv (by rwa [hrm1]) rn rn, exec_modinv hm rn ra, ?_⟩
  rw [hrm1, s.regVal_complete_self (Nat.mod_lt _ (Nat.pos_of_ne_zero hm)) (s.regVal_lt rm), modinv_mod]
  exact s.finish_complete_agree rn _ _

end Sequences

/-- Settles O18: each law is that of the inverse mod m, the scratch register keeping the operands still to be read. -/
theorem modinvLaws : Obligations.ModinvLaws := by
  intro s rd rn ra rm hm0 hnm hna
  have hm : s.regVal rm ≠ 0 := mt State.regVal_eq_zero_iff.mp hm0
  exact ⟨fun hg => ⟨exec_modinv_modmul hnm.symm rd hna.symm hm hg, exec_modinv_modinv hnm.symm rd hm hg⟩,
    exec_modred_modinv hnm.symm hm⟩

/-! ### Corner values (R143) -/

/-- A number congruent to m - 1, that is to -1, has m - 1 as its inverse. -/
theorem mul_sub_one_modEq_one {a m : Nat} (hm : 0 < m) (ha : a % m = m - 1) : a * (m - 1) ≡ 1 [MOD m] := by
  have hneg : ((m - 1 : Nat) : Int) ≡ -1 [ZMOD m] := by
    rw [Nat.cast_pred hm, Int.modEq_comm, Int.modEq_iff_dvd]
    simp
  have hcast : (a : Int) ≡ -1 [ZMOD m] := by
    refine (Int.natCast_modEq_iff.mpr ?_).trans hneg
    rw [← ha]
    exact (Nat.mod_modEq a m).symm
  apply Int.natCast_modEq_iff.mp
  simpa using hcast.mul hneg

theorem gcd_eq_one_of_prime {a p : Nat} (hp : p.Prime) (ha : a % p ≠ 0) : Nat.gcd a p = 1 :=
  (hp.coprime_iff_not_dvd.mpr fun h => ha (Nat.mod_eq_zero_of_dvd h)).symm

/-- The word that holds m - 1: no borrow, for m is not 0. -/
theorem ofNat_toNat_sub_one {v : Word} (hv : 0 < v.toNat) : BitVec.ofNat 256 (v.toNat - 1) = v - 1#256 := by
  bv_omega

/-- Settles O19: 0, 1 and m - 1 are the inverses at those corners; a multiple of m has gcd m with it; and a prime's gcd
with a number that is not its multiple is 1. -/
theorem modinvCorners : Obligations.ModinvCorners := by
  intro s rd ra rm
  refine ⟨fun hm => ?_, fun (hm : 1 < s.regVal rm) => ⟨fun (ha : s.regVal ra % s.regVal rm = 0) => ?_,
    fun (ha : s.regVal ra % s.regVal rm = 1) => ?_, fun (ha : s.regVal ra % s.regVal rm = s.regVal rm - 1) => ?_,
    fun hp ha => ?_⟩⟩
  · have hone : s.regVal rm = 1 := congrArg BitVec.toNat hm
    exact exec_modinv_of_inverse (by omega) (hone ▸ Nat.modEq_one) rd
  · refine exec_modinv_of_gcd_ne_one (by omega) ?_ rd
    rw [Nat.gcd_eq_right (Nat.dvd_of_mod_eq_zero ha)]
    omega
  · have hcong : s.regVal ra ≡ 1 [MOD s.regVal rm] := ha.trans (Nat.mod_eq_of_lt hm).symm
    exact exec_modinv_of_inverse hm (by rwa [mul_one]) rd
  · have hpos : 0 < s.regVal rm := by omega
    rw [exec_modinv_of_inverse (by omega) (mul_sub_one_modEq_one hpos ha), ← ofNat_toNat_sub_one hpos]
    rfl
  · obtain ⟨v, -, -, hexec⟩ := exec_modinv_of_gcd_eq_one (by omega) (gcd_eq_one_of_prime hp ha) rd
    exact ⟨v, hexec⟩

end Sys2Proof.Machine
end

section
/-!
PROOFS. The family of 43_lagrange.md: the two Lagrange commands whole, their corner values, and what interpolation at 0
promises of them.
-/

namespace Sys2Proof.Machine

open Finset

/-! ### The checks before any coefficient (R152, R153) -/

/-- Settles O20: the COUNT test is the first check, and a t above 16 is above COUNT. -/
theorem insufficientShares : Obligations.InsufficientShares := by
  intro s rd rm i t
  have hshort (h : s.count.toNat < t) :=
    And.intro (exec_lagcoef_insufficient h rd rm i) (exec_lagrecon_insufficient h rd rm)
  refine ⟨hshort, fun hs ht => hshort ?_⟩
  rw [State.inv_iff] at hs
  omega

section Operands
variable {s : State} {rm : Reg} {t : Nat} (hcount : t ≤ s.count.toNat)
include hcount

theorem exec_lagcoef_operands {i : Nat} (h : t = 0 ∨ s.regVal rm = 0 ∨ t ≤ i) (rd : Reg) :
    exec (.lagcoef rd i t rm) s = .next { s with err := 1#2 } := by
  rw [exec_eq_finish (rd := rd) rfl, resultOf, checkLagrange_operands hcount (by rwa [decide_eq_true_iff])]
  rfl

theorem exec_lagrecon_operands (h : t = 0 ∨ s.regVal rm = 0) (rd : Reg) :
    exec (.lagrecon rd t rm) s = .next { s with err := 1#2 } := by
  rw [exec_eq_finish (rd := rd) rfl, resultOf, checkLagrange_operands hcount (h.imp_right .inl)]
  rfl

end Operands

/-- Settles O21: each operand error is a cause of the check after the COUNT test. -/
theorem lagrangeOperandErrors : Obligations.LagrangeOperandErrors := by
  intro s rd rm i t hcount
  refine ⟨fun h => ?_, fun hi => exec_lagcoef_operands hcount (.inr (.inr hi)) rd⟩
  have h' : t = 0 ∨ s.regVal rm = 0 := h.imp_right State.regVal_eq_zero_iff.mpr
  exact ⟨exec_lagcoef_operands hcount (h'.imp_right .inl) rd, exec_lagrecon_operands hcount h' rd⟩

/-! ### The coefficients and the sum of a state's table (R155, R156) -/

/-- The coefficient of slot i over the slots below t, from the table as the commands read it (R151, R155). -/
def State.coefficient (s : State) (m t i : Nat) : Except Err Nat := lag i t (fun n => s.slotX n % m) m

/-- The sum over the slots below t, from the table as the commands read it (R151, R156). -/
def State.reconstruction (s : State) (m t : Nat) : Except Err Nat :=
  recon t (fun n => s.slotX n % m) (fun n => s.slotF n % m) m

section Coefficient
variable {s : State} {m t i : Nat} (hm : m ≠ 0)
include hm

theorem State.coefficient_eq_error (h : ∃ j < t, j ≠ i ∧ ¬ s.invertiblePair m i j) :
    s.coefficient m t i = .error .domain := by
  rcases s.lag_spec i t hm with ⟨hall, -⟩ | ⟨-, herr⟩
  · obtain ⟨j, hj, hne, hpair⟩ := h
    exact absurd (hall j hj hne) hpair
  · exact herr

theorem State.exists_coefficient (h : ∀ j < t, j ≠ i → s.invertiblePair m i j) :
    ∃ v, s.coefficient m t i = .ok v ∧ v < m ∧ (v : Int) * s.denominator t i ≡ s.numerator t i [ZMOD m] := by
  rcases s.lag_spec i t hm with ⟨-, hok⟩ | ⟨⟨j, hj, hne, hpair⟩, -⟩
  · exact hok
  · exact absurd (h j hj hne) hpair

end Coefficient

/-- Any solution below the modulus is the coefficient. -/
theorem State.coefficient_eq_ok {s : State} {m t i v : Nat} (h : ∀ j < t, j ≠ i → s.invertiblePair m i j) (hv : v < m)
    (hmul : (v : Int) * s.denominator t i ≡ s.numerator t i [ZMOD m]) : s.coefficient m t i = .ok v := by
  obtain ⟨w, hw, hlt, hwmul⟩ := s.exists_coefficient (Nat.ne_zero_of_lt hv) h
  rw [hw, lag_value_unique (State.denominator_coprime h) hlt hv hwmul hmul]

section Sum
variable {t m : Nat} {xs fs : Nat → Nat} (hm : m ≠ 0)
include hm

theorem recon_eq_ok {l : Nat → Nat} (hl : ∀ i < t, lag i t xs m = .ok (l i)) :
    recon t xs fs m = .ok ((∑ i ∈ range t, fs i * l i) % m) := by
  rcases recon_spec t xs fs hm with ⟨l', hl', v, hv, hlt, hsum⟩ | ⟨⟨i, hi, herr⟩, -⟩
  · have hll : ∀ i ∈ range t, fs i * l' i = fs i * l i := fun i hi => by
      have hi := mem_range.mp hi
      rw [Except.ok.inj ((hl i hi).symm.trans (hl' i hi))]
    rw [hv, ← sum_congr rfl hll, ← hsum, Nat.mod_eq_of_lt hlt]
  · exact absurd ((hl i hi).symm.trans herr) nofun

theorem recon_eq_error (h : ∃ i < t, lag i t xs m = .error .domain) : recon t xs fs m = .error .domain := by
  rcases recon_spec t xs fs hm with ⟨l, hl, -⟩ | ⟨-, herr⟩
  · obtain ⟨i, hi, herr⟩ := h
    exact absurd ((hl i hi).symm.trans herr) nofun
  · exact herr

end Sum

section Reconstruction
variable {s : State} {m t : Nat} (hm : m ≠ 0)
include hm

theorem State.reconstruction_eq_ok {l : Nat → Nat} (hl : ∀ i < t, s.coefficient m t i = .ok (l i)) :
    s.reconstruction m t = .ok ((∑ i ∈ range t, s.slotF i * l i) % m) := by
  have hsum : ∑ i ∈ range t, s.slotF i % m * l i ≡ ∑ i ∈ range t, s.slotF i * l i [MOD m] :=
    Nat.ModEq.sum fun i _ => (Nat.mod_modEq _ _).mul_right _
  rw [← hsum]
  exact recon_eq_ok hm hl

theorem State.reconstruction_eq_error (h : ∃ i < t, ∃ j < t, j ≠ i ∧ ¬ s.invertiblePair m i j) :
    s.reconstruction m t = .error .domain := by
  obtain ⟨i, hi, hpair⟩ := h
  exact recon_eq_error hm ⟨i, hi, s.coefficient_eq_error hm hpair⟩

/-- A sum that completed had all its coefficients. -/
theorem State.reconstruction_ok {v : Nat} (h : s.reconstruction m t = .ok v) :
    ∃ l : Nat → Nat, (∀ i < t, s.coefficient m t i = .ok (l i)) ∧ v = (∑ i ∈ range t, s.slotF i * l i) % m := by
  rcases recon_spec t (fun n => s.slotX n % m) (fun n => s.slotF n % m) hm with ⟨l, hl, -⟩ | ⟨-, herr⟩
  · exact ⟨l, hl, Except.ok.inj (h.symm.trans (s.reconstruction_eq_ok hm hl))⟩
  · exact absurd (h.symm.trans herr) nofun

end Reconstruction

/-! ### The commands past their checks (R154, R156) -/

section Checked
variable {s : State} {rm : Reg} {t : Nat} (hcount : t ≤ s.count.toNat) (hm : s.regVal rm ≠ 0) (rd : Reg)
include hcount hm

theorem exec_lagcoef {i : Nat} (hi : i < t) :
    exec (.lagcoef rd i t rm) s = .next (s.finish rd (s.coefficient (s.regVal rm) t i)) := by
  rw [exec_eq_finish (rd := rd) rfl, resultOf,
    checkLagrange_pass hcount (Nat.ne_zero_of_lt hi) hm (decide_eq_false (Nat.not_le.mpr hi)), State.coefficient]

theorem exec_lagrecon (ht : t ≠ 0) :
    exec (.lagrecon rd t rm) s = .next (s.finish rd (s.reconstruction (s.regVal rm) t)) := by
  rw [exec_eq_finish (rd := rd) rfl, resultOf, checkLagrange_pass hcount ht hm rfl, State.reconstruction]

theorem exec_lagcoef_of_not_invertible {i : Nat} (hi : i < t)
    (h : ∃ j < t, j ≠ i ∧ ¬ s.invertiblePair (s.regVal rm) i j) :
    exec (.lagcoef rd i t rm) s = .next { s with err := 1#2 } := by
  rw [exec_lagcoef hcount hm rd hi, s.coefficient_eq_error hm h]
  rfl

theorem exec_lagrecon_of_not_invertible
    (h : ∃ i < t, ∃ j < t, j ≠ i ∧ ¬ s.invertiblePair (s.regVal rm) i j) :
    exec (.lagrecon rd t rm) s = .next { s with err := 1#2 } := by
  have ht : t ≠ 0 := by
    obtain ⟨i, hi, -⟩ := h
    exact Nat.ne_zero_of_lt hi
  rw [exec_lagrecon hcount hm rd ht, s.reconstruction_eq_error hm h]
  rfl

theorem exec_lagcoef_of_coefficient {i v : Nat} (hi : i < t) (h : s.coefficient (s.regVal rm) t i = .ok v) :
    exec (.lagcoef rd i t rm) s = .next (s.complete rd v) := by
  rw [exec_lagcoef hcount hm rd hi, h, State.finish_ok]

theorem exec_lagrecon_of_coefficients (ht : t ≠ 0) {l : Nat → Nat}
    (hl : ∀ i < t, s.coefficient (s.regVal rm) t i = .ok (l i)) :
    ∃ v : Word, v.toNat = (∑ i ∈ range t, s.slotF i * l i) % s.regVal rm ∧
      exec (.lagrecon rd t rm) s = .next { s with x := s.x.set rd v, err := 0#2 } := by
  obtain ⟨v, hv, hcomplete⟩ := s.complete_eq rd
    (Nat.mod_lt (∑ i ∈ range t, s.slotF i * l i) (Nat.pos_of_ne_zero hm)) (s.regVal_lt rm)
  exact ⟨v, hv, by rw [exec_lagrecon hcount hm rd ht, s.reconstruction_eq_ok hm hl, State.finish_ok, hcomplete]⟩

end Checked

/-- Settles O22: the encoding's sum, the checks in their order, and the coefficient, the one solution below m. -/
theorem lagcoefResult : Obligations.LagcoefResult := by
  intro s rd rm i t hi16 ht32
  refine ⟨decode_ofNat_of_toNat_encode (Instr.wf_lagcoef.mpr ⟨hi16, ht32⟩) (formatL_toNat .lagcoef rd i t rm hi16 ht32),
    fun h => exec_lagcoef_insufficient h rd rm i, fun hcount h => ?_, fun hcount hi hm0 => ?_⟩
  · exact exec_lagcoef_operands hcount (h.imp_right (.imp_left State.regVal_eq_zero_iff.mpr)) rd
  · have hm : s.regVal rm ≠ 0 := mt State.regVal_eq_zero_iff.mp hm0
    refine ⟨exec_lagcoef_of_not_invertible hcount hm rd hi, fun hinv => ?_⟩
    obtain ⟨v, hok, hlt, hmul⟩ := s.exists_coefficient hm hinv
    obtain ⟨w, rfl, hcomplete⟩ := s.complete_eq rd hlt (s.regVal_lt rm)
    exact ⟨w, hlt, hmul, fun y hy hymul => lag_value_unique (State.denominator_coprime hinv) hy hlt hymul hmul,
      hcomplete ▸ exec_lagcoef_of_coefficient hcount hm rd hi hok⟩

/-- Settles O23: the encoding's sum, the checks in their order, and the sum of the coefficients of all used slots. -/
theorem lagreconResult : Obligations.LagreconResult := by
  intro s rd rm t ht32
  refine ⟨decode_ofNat_of_toNat_encode (Instr.wf_lagrecon.mpr ht32) (formatL_toNat_i0 .lagrecon rd rm ht32),
    fun h => exec_lagrecon_insufficient h rd rm, fun hcount h => ?_, fun hcount ht hm0 => ?_⟩
  · exact exec_lagrecon_operands hcount (h.imp_right State.regVal_eq_zero_iff.mpr) rd
  · have hm : s.regVal rm ≠ 0 := mt State.regVal_eq_zero_iff.mp hm0
    refine ⟨exec_lagrecon_of_not_invertible hcount hm rd, fun hinv => ?_⟩
    choose! l hl _ hmul using fun i hi => s.exists_coefficient hm (hinv i hi)
    obtain ⟨v, hv, hexec⟩ := exec_lagrecon_of_coefficients hcount hm rd ht hl
    have hlt : v.toNat < s.regVal rm := hv ▸ Nat.mod_lt _ (Nat.pos_of_ne_zero hm)
    have hsum : (v.toNat : Int) ≡ ∑ i ∈ range t, (s.slotF i : Int) * l i [ZMOD s.regVal rm] := by
      rw [hv]
      exact_mod_cast mod_cast_modEq (∑ i ∈ range t, s.slotF i * l i) (s.regVal rm)
    exact ⟨v, fun i => l i, hlt, hmul, hsum, hexec⟩

/-! ### LAGRECON as a sum over LAGCOEF (R158 item 4) -/

/-- A command that left its destination with code 0 had a result, which is what it wrote. -/
theorem resultOf_of_exec {i : Instr} {s : State} {rd : Reg} {w : Word} (hd : i.dest = some rd)
    (h : exec i s = .next { s with x := s.x.set rd w, err := 0#2 }) :
    ∃ v, resultOf i s = .ok v ∧ BitVec.ofNat 256 v = w := by
  rw [exec_eq_finish hd] at h
  have hfinish := Host.Outcome.next.inj h
  cases hr : resultOf i s with
  | error e =>
    rw [hr] at hfinish
    exact absurd (congrArg State.err hfinish) e.code_ne_zero
  | ok v =>
    rw [hr] at hfinish
    have hx := congrArg (fun u : State => u.x[rd]) hfinish
    exact ⟨v, rfl, by simpa using hx⟩

/-- Settles O24: a sum that completed had a coefficient for every used slot, and LAGCOEF returns each. -/
theorem lagreconSumsCoefficients : Obligations.LagreconSumsCoefficients := by
  intro s rd rm t w h
  obtain ⟨v, hr, rfl⟩ := resultOf_of_exec rfl h
  obtain ⟨hcount, -, hm, -, hrecon⟩ := checkLagrange_ok hr
  obtain ⟨l, hl, rfl⟩ := State.reconstruction_ok hm hrecon
  have hword : ∀ i < t, (BitVec.ofNat 256 (l i)).toNat = l i := fun i hi =>
    ofNat_toNat_of_lt (lag_lt hm (hl i hi)) (s.regVal_lt rm)
  refine ⟨fun i => BitVec.ofNat 256 (l i), fun i hi => exec_lagcoef_of_coefficient hcount hm rd hi (hl i hi), ?_⟩
  rw [ofNat_toNat_of_lt (Nat.mod_lt _ (Nat.pos_of_ne_zero hm)) (s.regVal_lt rm)]
  exact congrArg (· % s.regVal rm) (sum_congr rfl fun i hi => by rw [hword i (mem_range.mp hi)])

/-! ### Indices congruent mod m, and corner values (R157) -/

theorem State.not_invertiblePair_of_mod_eq {s : State} {m i j : Nat} (hm : 1 < m) (h : s.slotX i % m = s.slotX j % m) :
    ¬ s.invertiblePair m i j := by
  have hdvd : (m : Int) ∣ s.slotX i - s.slotX j := Int.modEq_iff_dvd.mp (Int.natCast_modEq_iff.mpr h.symm)
  have hgcd : Int.gcd ((s.slotX i : Int) - s.slotX j) m = m := Nat.gcd_eq_right (Int.natCast_dvd.mp hdvd)
  rw [State.invertiblePair, hgcd]
  exact hm.ne'

/-- Settles O28: either slot is the other's factor with no inverse. -/
theorem duplicateIndexFails : Obligations.DuplicateIndexFails := by
  intro s rd rm t i j hcount hi hj hne hm1 heq
  have hm : s.regVal rm ≠ 0 := Nat.ne_zero_of_lt hm1
  have hij := State.not_invertiblePair_of_mod_eq hm1 heq
  have hji := State.not_invertiblePair_of_mod_eq hm1 heq.symm
  exact ⟨exec_lagrecon_of_not_invertible hcount hm rd ⟨i, hi, j, hj, hne.symm, hij⟩,
    exec_lagcoef_of_not_invertible hcount hm rd hi ⟨j, hj, hne.symm, hij⟩,
    exec_lagcoef_of_not_invertible hcount hm rd hj ⟨i, hi, hne, hji⟩⟩

theorem State.coefficient_modulus_one (s : State) (t i : Nat) : s.coefficient 1 t i = .ok 0 :=
  State.coefficient_eq_ok (fun _ _ _ => Int.gcd_one_right _) one_pos Int.modEq_one

theorem State.coefficient_single_slot (s : State) {m : Nat} (hm : 1 < m) : s.coefficient m 1 0 = .ok 1 :=
  State.coefficient_eq_ok (by omega) hm (by simp [State.denominator, State.numerator, Int.ModEq.refl])

section ZeroIndex
variable {s : State} {m t i : Nat} (hm : m ≠ 0) (hinv : ∀ j < t, j ≠ i → s.invertiblePair m i j)
include hm hinv

/-- Another slot's index 0 makes a factor of the numerator 0. -/
theorem State.coefficient_other_index_zero (h : ∃ j < t, j ≠ i ∧ s.slotX j % m = 0) : s.coefficient m t i = .ok 0 := by
  obtain ⟨j, hj, hne, hzero⟩ := h
  have hfactor : (m : Int) ∣ -(s.slotX j : Int) :=
    dvd_neg.mpr (Int.natCast_dvd_natCast.mpr (Nat.dvd_of_mod_eq_zero hzero))
  have hnum : (m : Int) ∣ s.numerator t i := hfactor.trans (dvd_prod_of_mem _ (by simp [hne, hj]))
  refine State.coefficient_eq_ok hinv (Nat.pos_of_ne_zero hm) ?_
  simpa using (Int.modEq_zero_iff_dvd.mpr hnum).symm

/-- The own index 0 makes the numerator's factors the denominator's. -/
theorem State.coefficient_own_index_zero (h : s.slotX i % m = 0) : s.coefficient m t i = .ok (1 % m) := by
  have hzero : (s.slotX i : Int) ≡ 0 [ZMOD m] := Int.natCast_modEq_iff.mpr h
  have hden : s.denominator t i ≡ s.numerator t i [ZMOD m] :=
    Int.ModEq.prod fun j _ => by simpa using hzero.sub_right (s.slotX j : Int)
  refine State.coefficient_eq_ok hinv (Nat.mod_lt _ (Nat.pos_of_ne_zero hm)) ?_
  simpa using (mod_cast_modEq 1 m).mul hden

end ZeroIndex

/-- With the own index of slot i 0, the sum keeps the value of slot i alone. -/
theorem exec_lagrecon_of_index_zero {s : State} {rm : Reg} {i t : Nat} (hcount : t ≤ s.count.toNat) (hi : i < t)
    (hm : s.regVal rm ≠ 0) (rd : Reg) (hinv : ∀ k < t, ∀ j < t, j ≠ k → s.invertiblePair (s.regVal rm) k j)
    (hzero : s.slotX i % s.regVal rm = 0) :
    ∃ v : Word, v.toNat = s.slotF i % s.regVal rm ∧
      exec (.lagrecon rd t rm) s = .next { s with x := s.x.set rd v, err := 0#2 } := by
  have hl : ∀ k < t, s.coefficient (s.regVal rm) t k = .ok (if k = i then 1 % s.regVal rm else 0) := fun k hk => by
    by_cases hki : k = i
    · subst hki
      rw [if_pos rfl, s.coefficient_own_index_zero hm (hinv k hk) hzero]
    · rw [if_neg hki, s.coefficient_other_index_zero hm (hinv k hk) ⟨i, hi, Ne.symm hki, hzero⟩]
  obtain ⟨v, hv, hexec⟩ := exec_lagrecon_of_coefficients hcount hm rd (Nat.ne_zero_of_lt hi) hl
  refine ⟨v, hv.trans ?_, hexec⟩
  simp [hi]

/-- Settles O29: each row is a coefficient at that corner, and the sum over such coefficients. -/
theorem lagrangeCorners : Obligations.LagrangeCorners := by
  intro s rd rm i t hcount hi hm0
  have hm : s.regVal rm ≠ 0 := mt State.regVal_eq_zero_iff.mp hm0
  have ht : t ≠ 0 := Nat.ne_zero_of_lt hi
  refine ⟨fun hm1 => ?_, fun ht1 hm1 => ?_, fun hinv hzero => ?_, fun hinv hzero => ?_, fun hinv hzero => ?_⟩
  · have hone : s.regVal rm = 1 := congrArg BitVec.toNat hm1
    have hl : ∀ k < t, s.coefficient (s.regVal rm) t k = .ok 0 := fun k _ => hone ▸ s.coefficient_modulus_one t k
    refine ⟨exec_lagcoef_of_coefficient hcount hm rd hi (hl i hi), ?_⟩
    obtain ⟨v, hv, hexec⟩ := exec_lagrecon_of_coefficients hcount hm rd ht hl
    obtain rfl : v = 0#256 := BitVec.eq_of_toNat_eq (by rw [hv, hone, Nat.mod_one]; rfl)
    exact hexec
  · subst ht1
    obtain rfl : i = 0 := by omega
    have hm1 : s.regVal rm ≠ 1 := mt (BitVec.eq_of_toNat_eq (y := 1#256)) hm1
    have hone := s.coefficient_single_slot (m := s.regVal rm) (by omega)
    refine ⟨exec_lagcoef_of_coefficient hcount hm rd hi hone, ?_⟩
    obtain ⟨v, hv, hexec⟩ := exec_lagrecon_of_coefficients hcount hm rd ht (l := fun _ => 1) fun k hk => by
      rwa [show k = 0 by omega]
    rw [sum_range_one, mul_one] at hv
    exact ⟨v, hv, hexec⟩
  · exact exec_lagcoef_of_coefficient hcount hm rd hi (s.coefficient_other_index_zero hm hinv hzero)
  · have hok := s.coefficient_own_index_zero hm hinv hzero
    obtain ⟨v, hv, hcomplete⟩ := s.complete_eq rd (lag_lt hm hok) (s.regVal_lt rm)
    exact ⟨v, hv, hcomplete ▸ exec_lagcoef_of_coefficient hcount hm rd hi hok⟩
  · exact exec_lagrecon_of_index_zero hcount hi hm rd hinv hzero

/-! ### The order of the shares (R158 item 3) -/

/-- The running product is the residue of the exact product. -/
theorem lagProduct_eq_residue (factor : Nat → Int) (i t : Nat) {m : Nat} (hm : m ≠ 0) :
    lagProduct factor i t m = residue (∏ j ∈ (range t).erase i, factor j) m :=
  (residue_unique (lagProduct_lt factor i hm t) (lagProduct_modEq factor i hm t)).symm

section Permuted
variable {t m : Nat} {p : Equiv.Perm Nat} (hp : ∀ n, p n < t ↔ n < t) (hm : m ≠ 0)
include hp hm

theorem lagProduct_perm (factor : Nat → Int) (i : Nat) :
    lagProduct (fun j => factor (p j)) i t m = lagProduct factor (p i) t m := by
  have hprod : ∏ j ∈ (range t).erase i, factor (p j) = ∏ j ∈ (range t).erase (p i), factor j :=
    prod_equiv p (by simp [hp]) fun _ _ => rfl
  rw [lagProduct_eq_residue _ _ _ hm, lagProduct_eq_residue _ _ _ hm, hprod]

theorem lag_perm (xs : Nat → Nat) (i : Nat) : lag i t (fun n => xs (p n)) m = lag (p i) t xs m := by
  have hden := lagProduct_perm hp hm (fun j => (xs (p i) : Int) - xs j) i
  have hnum := lagProduct_perm hp hm (fun j => 0 - (xs j : Int)) i
  simp only [lag, hden, hnum]

theorem recon_perm (xs fs : Nat → Nat) : recon t (fun n => xs (p n)) (fun n => fs (p n)) m = recon t xs fs m := by
  rcases recon_spec t xs fs hm with ⟨l, hl, -⟩ | ⟨⟨i, hi, herr⟩, hrecon⟩
  · have hsum : ∑ i ∈ range t, fs (p i) * l (p i) = ∑ i ∈ range t, fs i * l i :=
      sum_equiv p (by simp [hp]) fun _ _ => rfl
    have hl' : ∀ i < t, lag i t (fun n => xs (p n)) m = .ok (l (p i)) := fun i hi =>
      (lag_perm hp hm xs i).trans (hl (p i) ((hp i).mpr hi))
    rw [recon_eq_ok hm hl', recon_eq_ok hm hl, hsum]
  · obtain ⟨k, rfl⟩ := p.surjective i
    rw [hrecon]
    exact recon_eq_error hm ⟨k, (hp k).mp hi, (lag_perm hp hm xs k).trans herr⟩

end Permuted

/-- The result past the checks of a Lagrange command is used with a modulus other than 0 only. -/
theorem checkLagrange_congr_modulus {count t m : Nat} (b : Bool) {r r' : Except Err Nat} (h : m ≠ 0 → r = r') :
    checkLagrange count t m b r = checkLagrange count t m b r' := by
  by_cases hm : m = 0
  · simp [checkLagrange, hm]
  · rw [h hm]

/-- One result finished in two states with the same registers leaves the same registers and code. -/
theorem State.finish_x_err_congr {s u : State} (h : s.x = u.x) (rd : Reg) (r : Except Err Nat) :
    (s.finish rd r).x = (u.finish rd r).x ∧ (s.finish rd r).err = (u.finish rd r).err := by
  cases r with
  | error e => exact ⟨h, rfl⟩
  | ok v => exact ⟨by simp [h], rfl⟩

/-- Settles O27: a permutation of the used slots only reorders the factors of each product and the terms of the sum. -/
theorem shareOrderDoesNotMatter : Obligations.ShareOrderDoesNotMatter := by
  intro s s' rd rm t p hp hx hcount hslots
  have hm : s'.regVal rm = s.regVal rm := by rw [State.regVal, hx, State.regVal]
  have hX : ∀ n < t, s'.slotX n % s.regVal rm = s.slotX (p n) % s.regVal rm := fun n hn => by rw [(hslots n hn).1]
  have hF : ∀ n < t, s'.slotF n % s.regVal rm = s.slotF (p n) % s.regVal rm := fun n hn => by rw [(hslots n hn).2]
  have hrecon : resultOf (.lagrecon rd t rm) s' = resultOf (.lagrecon rd t rm) s := by
    simp only [resultOf, hm, hcount]
    exact checkLagrange_congr_modulus _ fun h0 =>
      (recon_congr hX hF _).trans (recon_perm hp h0 (fun n => s.slotX n % s.regVal rm) fun n => s.slotF n % s.regVal rm)
  have hcoef : ∀ i < t, resultOf (.lagcoef rd i t rm) s' = resultOf (.lagcoef rd (p i) t rm) s := fun i hi => by
    have hpi : p i < t := (hp i).mpr hi
    simp only [resultOf, hm, hcount, Nat.not_le.mpr hi, Nat.not_le.mpr hpi]
    exact checkLagrange_congr_modulus _ fun h0 =>
      (lag_congr hi hX _).trans (lag_perm hp h0 (fun n => s.slotX n % s.regVal rm) i)
  exact ⟨⟨_, _, exec_eq_finish rfl s, hrecon ▸ exec_eq_finish rfl s', State.finish_x_err_congr hx rd _⟩,
    fun i hi => ⟨_, _, exec_eq_finish rfl s, hcoef i hi ▸ exec_eq_finish rfl s', State.finish_x_err_congr hx rd _⟩⟩

/-! ### Interpolation at 0 over a prime field (R158 items 1, 2 and 5) -/

/-- The index of slot n as an element of the field of m elements. -/
def State.node (s : State) (m n : Nat) : ZMod m := s.slotX n

theorem State.invertiblePair_of_prime {s : State} {p i j : Nat} (hp : p.Prime) (h : s.slotX i % p ≠ s.slotX j % p) :
    s.invertiblePair p i j := by
  have hndvd : ¬ p ∣ ((s.slotX i : Int) - s.slotX j).natAbs := fun hdvd =>
    h (Int.natCast_modEq_iff.mp (Int.modEq_iff_dvd.mpr (Int.natCast_dvd.mpr hdvd))).symm
  exact (hp.coprime_iff_not_dvd.mpr hndvd).symm

section SharePolynomial
open Polynomial

/-- The polynomial over the integers mod m with the coefficients a 0 .. a (t-1), low to high. -/
noncomputable def sharePolynomial (m t : Nat) (a : Nat → Nat) : (ZMod m)[X] :=
  ∑ k ∈ range t, C (a k : ZMod m) * X ^ k

variable (m : Nat) {t : Nat} (a : Nat → Nat)

theorem eval_sharePolynomial (x : ZMod m) : eval x (sharePolynomial m t a) = ∑ k ∈ range t, (a k : ZMod m) * x ^ k := by
  simp only [sharePolynomial, eval_finsetSum, eval_mul, eval_C, eval_pow, eval_X]

theorem eval_zero_sharePolynomial (ht : 1 ≤ t) : eval 0 (sharePolynomial m t a) = a 0 := by
  rw [eval_sharePolynomial, sum_eq_single_of_mem 0 (mem_range.mpr ht) fun k _ hk => by rw [zero_pow hk, mul_zero],
    pow_zero, mul_one]

theorem degree_sharePolynomial_lt (t : Nat) : (sharePolynomial m t a).degree < t := by
  refine (degree_sum_le _ _).trans_lt ((Finset.sup_lt_iff (WithBot.bot_lt_coe t)).mpr fun k hk => ?_)
  exact (degree_C_mul_X_pow_le k _).trans_lt (Nat.cast_lt.mpr (mem_range.mp hk))

end SharePolynomial

section PrimeField
open Polynomial
variable {s : State} {m t : Nat} (hdistinct : ∀ i < t, ∀ j < t, i ≠ j → s.slotX i % m ≠ s.slotX j % m)
include hdistinct

theorem State.node_injOn : Set.InjOn (s.node m) (range t) := by
  intro i hi j hj h
  by_contra hne
  exact hdistinct i (by simpa using hi) j (by simpa using hj) hne ((ZMod.natCast_eq_natCast_iff' _ _ _).mp h)

variable [Fact m.Prime]

/-- A solution of R155's congruence is the value at 0 of the Lagrange basis polynomial of its slot. -/
theorem cast_eq_eval_basis {i l : Nat} (hi : i < t) (h : (l : Int) * s.denominator t i ≡ s.numerator t i [ZMOD m]) :
    (l : ZMod m) = eval 0 (Lagrange.basis (range t) (s.node m) i) := by
  have hne : ∀ j ∈ (range t).erase i, s.node m i - s.node m j ≠ 0 := fun j hj => by
    obtain ⟨hji, hj⟩ := mem_erase.mp hj
    exact sub_ne_zero.mpr fun he => hji (State.node_injOn hdistinct (by simpa using hi) (by simpa using hj) he).symm
  have hmul : (l : ZMod m) * ∏ j ∈ (range t).erase i, (s.node m i - s.node m j) =
      ∏ j ∈ (range t).erase i, -s.node m j := by
    simpa [State.denominator, State.numerator, State.node] using (ZMod.intCast_eq_intCast_iff _ _ m).mpr h
  have heval : eval 0 (Lagrange.basis (range t) (s.node m) i) * ∏ j ∈ (range t).erase i, (s.node m i - s.node m j) =
      ∏ j ∈ (range t).erase i, -s.node m j := by
    rw [Lagrange.basis, eval_prod, ← prod_mul_distrib]
    refine prod_congr rfl fun j hj => ?_
    simp only [Lagrange.basisDivisor, eval_mul, eval_C, eval_sub, eval_X]
    rw [mul_right_comm, inv_mul_cancel₀ (hne j hj), one_mul, zero_sub]
  exact mul_right_cancel₀ (prod_ne_zero_iff.mpr hne) (hmul.trans heval.symm)

/-- Every used slot has a coefficient, and it is the value at 0 of the slot's basis polynomial. -/
theorem exists_coefficients_eq_eval_basis :
    ∃ l : Nat → Nat, (∀ i < t, s.coefficient m t i = .ok (l i)) ∧ (∀ i < t, l i < m) ∧
      ∀ i ∈ range t, (l i : ZMod m) = eval 0 (Lagrange.basis (range t) (s.node m) i) := by
  have hp : m.Prime := Fact.out
  choose! l hl hlt hmul using fun i hi => s.exists_coefficient hp.ne_zero (i := i) (t := t) fun j hj hji =>
    State.invertiblePair_of_prime hp (hdistinct i hi j hj hji.symm)
  exact ⟨l, hl, hlt, fun i hi => cast_eq_eval_basis hdistinct (mem_range.mp hi) (hmul i (mem_range.mp hi))⟩

theorem sum_eval_basis (ht : 1 ≤ t) : ∑ i ∈ range t, eval 0 (Lagrange.basis (range t) (s.node m) i) = 1 := by
  rw [← eval_finsetSum, Lagrange.sum_basis (State.node_injOn hdistinct) (nonempty_range_iff.mpr (by omega)), eval_one]

/-- Shares of one polynomial of degree below t interpolate to its coefficient 0. -/
theorem sum_slotF_mul_eval_basis {a : Nat → Nat} (ht : 1 ≤ t)
    (hshares : ∀ i < t, s.slotF i % m = (∑ k ∈ range t, a k * s.slotX i ^ k) % m) :
    ∑ i ∈ range t, (s.slotF i : ZMod m) * eval 0 (Lagrange.basis (range t) (s.node m) i) = a 0 := by
  have hvalue : ∀ i ∈ range t, eval (s.node m i) (sharePolynomial m t a) = s.slotF i := fun i hi => by
    rw [eval_sharePolynomial, State.node]
    exact_mod_cast ((ZMod.natCast_eq_natCast_iff' _ _ m).mpr (hshares i (mem_range.mp hi))).symm
  have hpoly : sharePolynomial m t a = Lagrange.interpolate (range t) (s.node m) fun i => (s.slotF i : ZMod m) :=
    Lagrange.eq_interpolate_of_eval_eq _ (State.node_injOn hdistinct)
      ((degree_sharePolynomial_lt m a t).trans_eq (by rw [card_range])) hvalue
  calc ∑ i ∈ range t, (s.slotF i : ZMod m) * eval 0 (Lagrange.basis (range t) (s.node m) i)
      = eval 0 (sharePolynomial m t a) := by
        simp only [hpoly, Lagrange.interpolate_apply, eval_finsetSum, eval_mul, eval_C]
    _ = a 0 := eval_zero_sharePolynomial m a ht

end PrimeField

/-- Settles O26: the basis polynomials sum to the polynomial 1. -/
theorem coefficientsSumToOne : Obligations.CoefficientsSumToOne := by
  intro s rd rm t hp ht hcount hdistinct
  have : Fact (s.regVal rm).Prime := ⟨hp⟩
  obtain ⟨l, hl, hlt, hbasis⟩ := exists_coefficients_eq_eval_basis (m := s.regVal rm) hdistinct
  have hword : ∀ i ∈ range t, (BitVec.ofNat 256 (l i)).toNat = l i := fun i hi =>
    ofNat_toNat_of_lt (hlt i (mem_range.mp hi)) (s.regVal_lt rm)
  refine ⟨fun i => BitVec.ofNat 256 (l i),
    fun i hi => exec_lagcoef_of_coefficient hcount hp.ne_zero rd hi (hl i hi), ?_⟩
  have hsum : ((∑ i ∈ range t, l i : Nat) : ZMod (s.regVal rm)) = (1 : Nat) := by
    push_cast
    rw [sum_congr rfl hbasis, sum_eval_basis (m := s.regVal rm) hdistinct ht]
  rw [sum_congr rfl hword, ← Nat.mod_eq_of_lt hp.one_lt]
  exact (ZMod.natCast_eq_natCast_iff' _ _ _).mp hsum

/-- Settles O25: the sum interpolates the shares' polynomial at 0. -/
theorem lagreconRecoversSecret : Obligations.LagreconRecoversSecret := by
  intro s rd rm t a hp ht hcount hdistinct hshares
  have : Fact (s.regVal rm).Prime := ⟨hp⟩
  obtain ⟨l, hl, -, hbasis⟩ := exists_coefficients_eq_eval_basis (m := s.regVal rm) hdistinct
  obtain ⟨v, hv, hexec⟩ := exec_lagrecon_of_coefficients hcount hp.ne_zero rd (Nat.ne_zero_of_lt ht) hl
  have hsum : ((∑ i ∈ range t, s.slotF i * l i : Nat) : ZMod (s.regVal rm)) = a 0 := by
    push_cast
    rw [sum_congr rfl fun i hi => by rw [hbasis i hi], sum_slotF_mul_eval_basis (m := s.regVal rm) hdistinct ht hshares]
  exact ⟨v, hv.trans ((ZMod.natCast_eq_natCast_iff' _ _ _).mp hsum), hexec⟩

end Sys2Proof.Machine
end

section
/-!
PROOFS. The family of 44_system.md: CLEAR's word and effect, the words of its opcode that are not CLEAR, and the window
after it.
-/

namespace Sys2Proof.Machine

/-! ### CLEAR's word -/

/-- CLEAR has opcode 0xF0 to itself (30_encoding.md R86). -/
theorem eq_clear_of_code_toNat {i : Instr} (h : i.op.code.toNat = 0xF0) : i = .clear := by
  cases i with
  | clear => rfl
  | modred | modadd | modsub | modneg | modmul | modexp | modinv | lagcoef | lagrecon => simp [Instr.op, Op.code] at h

/-- Settles O30: a word of opcode 0xF0 that encodes a command encodes CLEAR, and CLEAR has one word. -/
theorem clearZeroises : Obligations.ClearZeroises := by
  refine ⟨decodeInvertsEncode .clear rfl, exec_clear, fun s c hop hne => ?_⟩
  apply runCommand_of_not_encoding
  intro i hwf henc
  have hcode : i.op.code.toNat = 0xF0 := by
    rw [← opcodeField_encode hwf, henc, opcodeField_toNat, hop]
  rw [eq_clear_of_code_toNat hcode] at henc
  exact hne henc.symm

/-! ### The window after CLEAR -/

theorem limb_zero (k : Limb) : limb 0#256 k = 0#32 := BitVec.extractLsb'_zero

/-- CLEAR leaves 0 in every mapped word (R170). -/
@[simp] theorem State.readLoc_zeroise (s : State) (l : Loc) : s.zeroise.readLoc l = 0#32 := by
  cases l with
  | cmd | status | count => rfl
  | reg n k | slotX n k | slotF n k =>
    have hzero : (Vector.replicate 16 0#256)[n] = 0#256 := Vector.getElem_replicate n.isLt
    exact (congrArg (limb · k) hzero).trans (limb_zero k)

/-- Settles O31: a read returns a mapped word's data or BusError, and CLEAR leaves every mapped word 0. -/
theorem clearedWindowReadsZero : Obligations.ClearedWindowReadsZero := by
  intro s t off size h
  rw [exec_clear] at h
  cases h
  unfold State.memRead
  cases locate off size with
  | none => exact .inr rfl
  | some l => exact .inl (congrArg Response.okData (s.readLoc_zeroise l))

end Sys2Proof.Machine
end

section
/-!
PROOFS. The family of 60_exceptions.md: the causes of each error and their order, what an error changes, a failed
command issued again, and that nothing stops the machine.
-/

namespace Sys2Proof.Machine

/-! ### The causes of the errors, in their order (R181, R182, R185) -/

/-- InsufficientSharesError comes before every other error of a command (R185). -/
theorem exec_of_insufficientCause {i : Instr} {s : State} (h : insufficientCause i s) :
    exec i s = .next { s with err := 2#2 } := by
  cases i with
  | lagcoef rd k t rm => exact exec_lagcoef_insufficient h rd rm k
  | lagrecon rd t rm => exact exec_lagrecon_insufficient h rd rm
  | modred | modadd | modsub | modneg | modmul | modexp | modinv | clear => exact h.elim

/-- Past the COUNT test, every listed cause of DomainError raises it (R181). -/
theorem exec_of_domainCause {i : Instr} {s : State} (hcount : ¬ insufficientCause i s) (h : domainCause i s) :
    exec i s = .next { s with err := 1#2 } := by
  cases i with
  | modred | modadd | modsub | modneg | modmul | modexp => exact exec_modulus_zero rfl rfl h
  | modinv rd ra rm =>
    by_cases hm : s.x[rm] = 0#256
    · exact exec_modulus_zero rfl rfl hm
    · exact exec_modinv_of_gcd_ne_one (mt State.regVal_eq_zero_iff.mp hm) (h.resolve_left hm) rd
  | lagcoef rd k t rm =>
    have hcount : t ≤ s.count.toNat := Nat.not_lt.mp hcount
    by_cases hop : t = 0 ∨ s.regVal rm = 0 ∨ t ≤ k
    · exact exec_lagcoef_operands hcount hop rd
    · simp only [not_or] at hop
      obtain ⟨ht, hm, hk⟩ := hop
      exact exec_lagcoef_of_not_invertible hcount hm rd (Nat.not_le.mp hk)
        (((h.resolve_left ht).resolve_left (mt State.regVal_eq_zero_iff.mpr hm)).resolve_left hk)
  | lagrecon rd t rm =>
    have hcount : t ≤ s.count.toNat := Nat.not_lt.mp hcount
    by_cases hop : t = 0 ∨ s.regVal rm = 0
    · exact exec_lagrecon_operands hcount hop rd
    · obtain ⟨ht, hm⟩ := not_or.mp hop
      exact exec_lagrecon_of_not_invertible hcount hm rd
        ((h.resolve_left ht).resolve_left (mt State.regVal_eq_zero_iff.mpr hm))
  | clear => exact h.elim

/-- The lists of causes are complete: without a listed cause a command completes (R181, R182, R186). -/
theorem exec_of_no_cause {i : Instr} {s : State} (hcount : ¬ insufficientCause i s) (h : ¬ domainCause i s) :
    ∃ t, exec i s = .next t ∧ t.err = 0#2 := by
  cases i with
  | modred | modadd | modsub | modneg | modmul | modexp =>
    exact ⟨_, exec_eq_complete rfl (checkModulus_pos (mt State.regVal_eq_zero_iff.mp h) _), rfl⟩
  | modinv rd ra rm =>
    obtain ⟨hm, hg⟩ := not_or.mp h
    obtain ⟨v, -, -, hexec⟩ :=
      exec_modinv_of_gcd_eq_one (mt State.regVal_eq_zero_iff.mp hm) (not_not.mp hg) rd
    exact ⟨_, hexec, rfl⟩
  | lagcoef rd k t rm =>
    simp only [domainCause, not_or] at h
    obtain ⟨-, hm0, hk, hpairs⟩ := h
    have hm : s.regVal rm ≠ 0 := mt State.regVal_eq_zero_iff.mp hm0
    push Not at hpairs
    obtain ⟨v, hv, -⟩ := s.exists_coefficient hm hpairs
    exact ⟨_, exec_lagcoef_of_coefficient (Nat.not_lt.mp hcount) hm rd (Nat.not_le.mp hk) hv, rfl⟩
  | lagrecon rd t rm =>
    simp only [domainCause, not_or] at h
    obtain ⟨ht, hm0, hpairs⟩ := h
    have hm : s.regVal rm ≠ 0 := mt State.regVal_eq_zero_iff.mp hm0
    push Not at hpairs
    choose! l hl using fun k hk => s.exists_coefficient hm (hpairs k hk)
    obtain ⟨v, -, hexec⟩ :=
      exec_lagrecon_of_coefficients (Nat.not_lt.mp hcount) hm rd ht fun k hk => (hl k hk).1
    exact ⟨_, hexec, rfl⟩
  | clear => exact ⟨_, exec_clear s, rfl⟩

/-- A word that does not decode raises IllegalCommand before any other check (R184, R185). -/
theorem runCommand_of_not_decode {c : BusWord} (h : ∀ i, decode c ≠ .ok i) (s : State) :
    runCommand c s = .next (s.raise .illegalCommand) := by
  rcases runCommand_cases c s with ⟨-, hrun⟩ | ⟨i, hdec, -⟩
  · exact hrun
  · exact absurd hdec (h i)

/-- Settles O34: a word decodes or not; a command has a cause of InsufficientSharesError, or else one of DomainError, or
none. -/
theorem errorCodesAndPriority : Obligations.ErrorCodesAndPriority := by
  intro s c
  refine ⟨fun h => ⟨_, runCommand_of_not_decode h s, rfl⟩, fun i hdec => ?_⟩
  rw [runCommand_of_decode hdec]
  by_cases hins : insufficientCause i s
  · exact ⟨_, exec_of_insufficientCause hins, fun _ => rfl, fun h => absurd hins h, fun h => absurd hins h⟩
  by_cases hdom : domainCause i s
  · exact ⟨_, exec_of_domainCause hins hdom, fun h => absurd h hins, fun _ _ => rfl, fun _ h => absurd hdom h⟩
  · obtain ⟨t, hexec, herr⟩ := exec_of_no_cause hins hdom
    exact ⟨t, hexec, fun h => absurd h hins, fun _ h => absurd h hdom, fun _ _ => herr⟩

/-! ### What an error changes (R187, R191) -/

/-- A command that ends with a code other than 0 raised an error. -/
theorem exists_eq_raise_of_exec {i : Instr} {s t : State} (h : exec i s = .next t) (herr : t.err ≠ 0#2) :
    ∃ e, t = s.raise e := by
  rcases exec_cases i s with ⟨rd, -, h'⟩ | ⟨-, h'⟩ <;> rw [h'] at h <;> cases h
  · cases hr : resultOf i s with
    | error e => exact ⟨e, rfl⟩
    | ok v =>
      rw [hr] at herr
      exact absurd (s.complete_err rd v) herr
  · exact absurd s.zeroise_err herr

/-- A word whose command ends with a code other than 0 changed that code and nothing else. -/
theorem runCommand_eq_setErr {c : BusWord} {s t : State} (h : runCommand c s = .next t) (herr : t.err ≠ 0#2) :
    t = s.setErr t.err := by
  have hraise : ∃ e, t = s.raise e := by
    rcases runCommand_cases c s with ⟨-, h'⟩ | ⟨i, -, h'⟩
    · exact ⟨_, Host.Outcome.next.inj (h.symm.trans h')⟩
    · exact exists_eq_raise_of_exec (h' ▸ h) herr
  obtain ⟨e, rfl⟩ := hraise
  rfl

/-- Settles O35: a CMD write answers OK whatever its word ends in, and an error is a write of STATUS.ERR alone. -/
theorem errorChangesOnlyStatus : Obligations.ErrorChangesOnlyStatus := by
  intro s c rest
  obtain ⟨t, ht⟩ := runCommand_next c { s with host := rest }
  have hstep := step_cmd s c rest
  rw [ht] at hstep
  exact ⟨_, hstep, rfl, fun herr => congrArg (State.respond · .ok) (runCommand_eq_setErr ht herr)⟩

/-- Settles O37: a failed command changed STATUS.ERR alone, which no command reads. -/
theorem failureIsNotTransient : Obligations.FailureIsNotTransient := by
  intro s t c h herr
  calc runCommand c t = runCommand c (s.setErr t.err) := congrArg (runCommand c) (runCommand_eq_setErr h herr)
    _ = runCommand c s := statusIsOverwritten s c t.err
    _ = .next t := h

/-! ### Nothing stops the machine (R190, 70_reset_and_hazards.md R214) -/

/-- Every step answers a next state, with an event to come or without. -/
theorem step_next (s : State) : ∃ t, step s = .next t := by
  cases hh : s.host with
  | nil => exact ⟨s, step_idle hh⟩
  | cons e rest =>
    rw [step_of_host_eq_cons hh]
    exact transact_next e _

/-- Settles O50, by induction on the number of steps. -/
theorem everyRunAnswers : Obligations.EveryRunAnswers := by
  intro n
  induction n with
  | zero => exact fun s => ⟨s, rfl⟩
  | succ n ih =>
    intro s
    obtain ⟨t, ht⟩ := step_next s
    rw [core_run_succ ht]
    exact ih t

end Sys2Proof.Machine
end

section
/-!
PROOFS. The family of 70_reset_and_hazards.md: what a reset event does.
-/

namespace Sys2Proof.Machine

/-- Settles O33: a reset event is answered with the reset state, which holds these values field by field (R200). -/
theorem resetEventResets : Obligations.ResetEventResets := by
  intro s rest
  exact step_reset s rest

end Sys2Proof.Machine
end

section
/-!
PROOFS. The printed command words of 95_test_vectors.md Part 2.
-/

namespace Sys2Proof.Machine

/-- Settles O5: each printed word is the number of its command's encoding, which the decoder reads back (30_encoding.md
R87). -/
theorem specWordsDecode : Obligations.SpecWordsDecode := by
  refine ⟨?modred, ?modadd, ?modsub, ?modneg, ?modmul, ?modexp, ?modinv, ?lagcoef, ?lagrecon, ?clear⟩ <;>
    exact decode_ofNat_of_toNat_encode rfl rfl

end Sys2Proof.Machine
end
